-- ==== Sys2Proof/Word.lean ====
section
/-! DEFINITION. The word types of SHA1-CORE: 32-bit words, bytes and 40-bit command words
(spec/00_scope.md rules R7 and R11, spec/30_encoding.md rule R70). Addition, AND, OR, XOR, NOT and the
logical shifts of rule R12 are `BitVec`'s own operations on these types. -/

namespace Sys2Proof

/-- A word: 32 bits, unsigned, wrapping at every addition (R7, R12, R140). -/
abbrev Word := BitVec 32

/-- One byte of the stream. -/
abbrev Byte := BitVec 8

/-- A command word `CMD[39:0]` (R70). Bit 0 is the least significant bit (R11). -/
abbrev CmdWord := BitVec 40

end Sys2Proof
end

