-- ==== Sys2Proof/Syntax.lean ====
section
/-! DEFINITION. The commands of SHA1-CORE, one constructor per row of spec/opcode_table.json
(spec/30_encoding.md rules R70 to R76). -/

namespace Sys2Proof

/-- The four commands (R75). NOP, START and FINISH ignore the NB and DATA fields (R78), so they carry no operand.
UPDATE carries the raw fields NB and DATA (R72, R73); NB's legal values are checked by `Instr.wellFormed`. -/
inductive Instr where
  /-- NOP, opcode 0x0 (R101). -/
  | nop
  /-- START, opcode 0x1 (R102). -/
  | start
  /-- UPDATE nb, data, opcode 0x2 (R103): one beat of `nb` stream bytes, held in lanes of `data`. -/
  | update (nb : BitVec 3) (data : Word)
  /-- FINISH, opcode 0x3 (R109). -/
  | finish
  deriving DecidableEq, Repr

end Sys2Proof
end

