-- ==== Sys2Proof/WellFormed.lean ====
section
/-! DEFINITION. Which command terms have an encoding: an UPDATE beat carries 0 to 4 bytes
(spec/30_encoding.md rule R72). -/

namespace Sys2Proof

/-- R72: "Legal values are 0, 1, 2, 3 and 4". The other commands have no operand to check (R78). -/
def Instr.wellFormed : Instr → Bool
  | .nop => true
  | .start => true
  | .update nb _ => decide (nb.toNat ≤ 4)
  | .finish => true

end Sys2Proof
end

