-- ==== Sys2Proof/Decode.lean ====
section
/-! DEFINITION. The command word: its fields, the causes of a command error, the decoder (total on any 40-bit
word) and the encoder (spec/30_encoding.md rules R70 to R79, spec/60_exceptions.md rules R201 and R203). -/

namespace Sys2Proof

/-! ## Fields (R70, R71) -/

/-- `OPC = w[39:36]` (R71). -/
def opcField (w : CmdWord) : BitVec 4 := w.extractLsb' 36 4

/-- `RSV = w[35]` (R71). -/
def rsvField (w : CmdWord) : Bool := w.getLsbD 35

/-- `NB = w[34:32]` (R71). -/
def nbField (w : CmdWord) : BitVec 3 := w.extractLsb' 32 3

/-- `DATA = w[31:0]` (R71). -/
def dataField (w : CmdWord) : Word := w.extractLsb' 0 32

/-! ## Causes of a command error (R201) -/

/-- The causes of R201, in the order in which R203 reports them. -/
inductive CmdCause where
  /-- E_RSVD_OPC: OPC in 0x4..0xF (R77 a). -/
  | rsvdOpc
  /-- E_RSVD_BIT: RSV = 1 with a legal OPC (R77 b). -/
  | rsvdBit
  /-- E_RSVD_NB: UPDATE with NB in 5..7 (R77 c). -/
  | rsvdNb
  /-- E_SEQ: UPDATE or FINISH while PHASE = 1 (R201). Made after decode (R79). -/
  | seq
  deriving DecidableEq, Repr

/-- The ECAUSE code of a cause (the table of R201). Code 0, E_NONE, is no cause. -/
def CmdCause.code : CmdCause → BitVec 3
  | .rsvdOpc => 1
  | .rsvdBit => 2
  | .rsvdNb => 3
  | .seq => 4

/-! ## The decoder (R79) -/

/-- `decode(w)` of R79: a command, or the first cause that the word meets. -/
def decode (w : CmdWord) : Except CmdCause Instr :=
  if 4 ≤ (opcField w).toNat then .error .rsvdOpc
  else if rsvField w then .error .rsvdBit
  else if opcField w = 2 ∧ 4 < (nbField w).toNat then .error .rsvdNb
  else if opcField w = 0 then .ok .nop
  else if opcField w = 1 then .ok .start
  else if opcField w = 2 then .ok (.update (nbField w) (dataField w))
  else .ok .finish

/-! ## The encoder (R70, R75, R80) -/

/-- `{OPC, RSV, NB, DATA}` (R70). -/
def packWord (opc : BitVec 4) (rsv : BitVec 1) (nb : BitVec 3) (data : Word) : CmdWord :=
  opc ++ rsv ++ nb ++ data

/-- The command word of a command: `{OPC, 0, nb[2:0], data[31:0]}` (R80). The ignored fields of NOP, START and
FINISH are written as zero, which R78 says they should be. -/
def encode : Instr → CmdWord
  | .nop => packWord 0 0 0 0
  | .start => packWord 1 0 0 0
  | .update nb data => packWord 2 0 nb data
  | .finish => packWord 3 0 0 0

/-! ## The match and mask rows (R76) -/

/-- One row of R76's table: a word w is the row's command when `w & mask = match`. -/
structure OpcodeRow where
  name : String
  matchBits : CmdWord
  maskBits : CmdWord
  deriving DecidableEq, Repr

/-- The four rows of R76. For UPDATE, `NB ≤ 4` must hold as well. -/
def opcodeRows : List OpcodeRow :=
  [⟨"NOP", 0x0000000000, 0xF800000000⟩,
   ⟨"START", 0x1000000000, 0xF800000000⟩,
   ⟨"UPDATE", 0x2000000000, 0xF800000000⟩,
   ⟨"FINISH", 0x3000000000, 0xF800000000⟩]

/-- R76: "A word w is the command in a row when (w & mask) = match". -/
def OpcodeRow.matchesWord (r : OpcodeRow) (w : CmdWord) : Bool := decide (w &&& r.maskBits = r.matchBits)

/-- The mnemonic of a command (R75). -/
def Instr.mnemonic : Instr → String
  | .nop => "NOP"
  | .start => "START"
  | .update _ _ => "UPDATE"
  | .finish => "FINISH"

/-- The bits of a word that its command reads: every bit of an UPDATE word, and OPC and RSV of the others, whose NB and
DATA are ignored (R76, "`x` an ignored bit"; R78). -/
def Instr.usedBits : Instr → CmdWord
  | .nop => 0xF800000000
  | .start => 0xF800000000
  | .update _ _ => 0xFFFFFFFFFF
  | .finish => 0xF800000000

/-! ## The host's numbering of a table row's bits -/

/-- What the decoder reads from an instruction whose bits are `w`, numbered as spec/opcode_table.json numbers them.
A command is ONE 40-bit word (R70), so bit n of `w` is `CMD[n]`; bits at or above `nbits` count as 0, and a number
with a bit above bit 39 is no command word. -/
def decodeTableWord (nbits w : Nat) : Option Instr :=
  if w % 2 ^ nbits < 2 ^ 40 then
    match decode (BitVec.ofNat 40 (w % 2 ^ nbits)) with
    | .ok i => some i
    | .error _ => none
  else none

end Sys2Proof
end

