-- ==== Sys2Proof/Config.lean ====
section
/-! DEFINITION. What one instance of the core fixes (the parameter LANE_ORDER, spec/00_scope.md rule R8), and
the free values: the reset contents that the spec leaves unspecified (spec/70_reset_and_hazards.md rule R221). -/

namespace Sys2Proof

/-- The parameter `LANE_ORDER` (R8): where stream byte k sits in a 32-bit word (R51). -/
inductive LaneOrder where
  /-- LE: stream byte 0 in bits 7:0. -/
  | le
  /-- BE: stream byte 0 in bits 31:24. -/
  | be
  deriving DecidableEq, Repr

/-- The default of `LANE_ORDER` (R8, decision D4). -/
def Config.defaultLaneOrder : LaneOrder := .le

/-- The free draws of R221: draw number n of the words that a reset leaves "unspecified (any value)". It has no
body, so no proof can learn a value of it (log entry 2). -/
opaque Config.freeWord : Nat → Word

end Sys2Proof
end

