-- ==== Sys2Proof/Machine/Operands.lean ====
section
/-! DEFINITION. The operand forms of a command: the byte lanes of a 32-bit word and the stream bytes of an UPDATE
beat (spec/20_memory.md rule R51, spec/30_encoding.md rules R72 to R74). -/

namespace Sys2Proof.Machine

/-- `lanepos(k)`: the bit position of lane k (R51). -/
def lanepos (lanes : LaneOrder) (k : Nat) : Nat :=
  match lanes with
  | .le => 8 * k
  | .be => 8 * (3 - k)

/-- `byte_k = DATA[lanepos(k) + 7 : lanepos(k)]` (R73). -/
def laneByte (lanes : LaneOrder) (data : Word) (k : Nat) : Byte := data.extractLsb' (lanepos lanes k) 8

/-- The stream bytes of a beat, k = 0, 1, …, nb − 1 in stream order (R73). The lanes k ≥ nb are ignored (R74). -/
def beatBytes (lanes : LaneOrder) (nb : Nat) (data : Word) : List Byte :=
  (List.range nb).map (laneByte lanes data)

end Sys2Proof.Machine
end

