-- ==== Sys2Proof/Machine/Arith.lean ====
section
/-! DEFINITION. Word arithmetic: rotation, the byte swap, the three round functions and the initialization constants
(spec/41_compression.md rules R141 to R144, spec/42_endian.md rule R170, spec/40_hasher_commands.md rule R102). -/

namespace Sys2Proof.Machine

/-- `rotl(x, n) = (x << n) | (x >> (32 − n))`, for 0 ≤ n < 32 (R12, R141). -/
def rotl (x : Word) (n : Nat) : Word := (x <<< n) ||| (x >>> (32 - n))

/-- `bswap(x) = { x[7:0], x[15:8], x[23:16], x[31:24] }` (R170). -/
def bswap (x : Word) : Word :=
  x.extractLsb' 0 8 ++ x.extractLsb' 8 8 ++ x.extractLsb' 16 8 ++ x.extractLsb' 24 8

/-- `ch(x, y, z) = (x & y) ^ (~x & z)` (R142). -/
def ch (x y z : Word) : Word := (x &&& y) ^^^ (~~~x &&& z)

/-- `parity(x, y, z) = x ^ y ^ z` (R143). -/
def parity (x y z : Word) : Word := x ^^^ y ^^^ z

/-- `maj(x, y, z) = (x & y) ^ (x & z) ^ (y & z)` (R144). -/
def maj (x y z : Word) : Word := (x &&& y) ^^^ (x &&& z) ^^^ (y &&& z)

/-- H0 of "the five fixed SHA-1 initialization constants" (R102, R221). -/
def iv0 : Word := 0x67452301

/-- H1 of those constants. -/
def iv1 : Word := 0xEFCDAB89

/-- H2 of those constants. -/
def iv2 : Word := 0x98BADCFE

/-- H3 of those constants. -/
def iv3 : Word := 0x10325476

/-- H4 of those constants. -/
def iv4 : Word := 0xC3D2E1F0

end Sys2Proof.Machine
end

