-- ==== Sys2Proof/Machine/State.lean ====
section
/-! DEFINITION. The state of SHA1-CORE (spec/10_state.md rules R20 to R36), the reasons a step could stop, and the
state right after reset (spec/70_reset_and_hazards.md rule R221). -/

namespace Sys2Proof.Machine

/-- The running hash state H0..H4 (R20). -/
structure HashRegs where
  h0 : Word
  h1 : Word
  h2 : Word
  h3 : Word
  h4 : Word
  deriving DecidableEq, Repr

/-- The working registers A..E of the Compression Round (R25). -/
structure WorkRegs where
  a : Word
  b : Word
  c : Word
  d : Word
  e : Word
  deriving DecidableEq, Repr

/-- The staging buffer S[0..15], sixteen 32-bit words (R24, R50). -/
abbrev Buf := Vector Word 16

/-- PHASE (R28). -/
inductive Phase where
  /-- 0 = ACTIVE: data may be added and a digest may be taken. -/
  | active
  /-- 1 = FINALIZED: FINISH has run, and no START has run since. -/
  | finalized
  deriving DecidableEq, Repr

/-- Which compression of which command the sequencer is carrying out while BUSY (R34, the rows of R229). -/
inductive Job where
  /-- The block that an UPDATE beat completed. -/
  | updateBlock
  /-- The only block of a FINISH with OFF ≤ 55. -/
  | finishOne
  /-- The first block of a FINISH with OFF ≥ 56. -/
  | finishFirst
  /-- The second block of a FINISH with OFF ≥ 56. -/
  | finishLast
  deriving DecidableEq, Repr

/-- How far a compression has come (R34, R229). -/
inductive Stage where
  /-- The next edge prepares the block (normalize, pad, zero, length) and does LOAD. -/
  | prepare
  /-- The next edge does ROUND T while T ≤ 79, and then FOLD. -/
  | rounds
  deriving DecidableEq, Repr

/-- SEQ (R31): IDLE or BUSY. BUSY carries the step of the micro-step sequence, which R34 names beside SEQ and T. -/
inductive Seq where
  | idle
  | busy (job : Job) (stage : Stage)
  deriving DecidableEq, Repr

/-- What the host drives on the input ports at one rising edge of clk (R36). -/
structure PortIn where
  rst : Bool
  cmdValid : Bool
  cmd : CmdWord
  deriving DecidableEq, Repr

/-- The state. `lanes`, `draws` and `host` are the model's own fields: the parameter LANE_ORDER of this instance
(log entry 1), the count of free draws taken so far (log entry 2), and what the host will present at the coming
edges at which the core looks at its ports (log entry 3). All others are state elements of R221. OFF is
`L_LO[5:0]` and no field (R23, `State.off`); STATUS, cmd_ready and digest are functions of the state (R33, R36, R175). -/
structure State where
  /-- H0..H4 (R20). -/
  h : HashRegs
  /-- L_HI (R21). -/
  lHi : Word
  /-- L_LO (R21). -/
  lLo : Word
  /-- S[0..15] (R24). -/
  buf : Buf
  /-- A..E (R25). -/
  work : WorkRegs
  /-- T (R26). -/
  t : BitVec 7
  /-- PEND, whose length is PEND_N (R32). -/
  pend : List Byte
  /-- PHASE (R28). -/
  phase : Phase
  /-- ERR (R29). -/
  err : Bool
  /-- ECAUSE (R30). -/
  ecause : BitVec 3
  /-- SEQ (R31). -/
  seq : Seq
  /-- The instance's LANE_ORDER (R8). -/
  lanes : LaneOrder
  /-- How many free draws have been taken (the next one is `Config.freeWord draws`). -/
  draws : Nat
  /-- What the host will present, the next edge first. -/
  host : List PortIn
  deriving DecidableEq, Repr

/-- The reasons a step stops with a fault: none. No operation of the core raises anything but a command error (R200),
and a command error is a next state with ERR and ECAUSE written (R202), after which the core goes on (R204). -/
inductive Fault where
  deriving DecidableEq, Repr

/-- The reasons a step has no meaning. -/
inductive Refusal where
  /-- An instruction whose arm of `exec` is rejected by name. Safe. No arm raises it: every command has its meaning. -/
  | notModelled (mnemonic : String)
  deriving DecidableEq, Repr

/-- "the five fixed SHA-1 initialization constants" (R102, R221). -/
def initialHash : HashRegs := ⟨iv0, iv1, iv2, iv3, iv4⟩

/-- The machine right after reset (R221). S and A..E, which R221 leaves unspecified, are zero here: DESIGN CHOICE,
unsafe, log entry 4. LANE_ORDER is at its default (R8). The host has presented nothing yet. -/
def State.reset : State where
  h := initialHash
  lHi := 0
  lLo := 0
  buf := Vector.replicate 16 0
  work := ⟨0, 0, 0, 0, 0⟩
  t := 0
  pend := []
  phase := .active
  err := false
  ecause := 0
  seq := .idle
  lanes := Config.defaultLaneOrder
  draws := 0
  host := []

end Sys2Proof.Machine
end

