-- ==== Sys2Proof/Machine/Ops.lean ====
section
/-! DEFINITION. The shared operations over the state: the staging buffer (spec/20_memory.md), the endian swapper
(spec/42_endian.md), the length counter (spec/40_hasher_commands.md rule R104), the command error, which is this
core's only exception (spec/60_exceptions.md rule R202), and reset (spec/70_reset_and_hazards.md rule R221). -/

namespace Sys2Proof.Machine

/-! ## The staging buffer, word by word -/

/-- `S[j]` (R13). The index is taken modulo 16, as the circular window of R149 takes it. -/
def Buf.word (b : Buf) (j : Nat) : Word := b[j % 16]'(Nat.mod_lt j (by decide))

/-- `S[j] <- v` (R13). -/
def Buf.setWord (b : Buf) (j : Nat) (v : Word) : Buf := b.set (j % 16) v (Nat.mod_lt j (by decide))

/-- `for q in first..last−1: S[q] <- f(S[q])`; the words are independent (R172). -/
def Buf.mapRange (b : Buf) (first last : Nat) (f : Word → Word) : Buf :=
  Vector.ofFn fun q => if first ≤ q.val ∧ q.val < last then f b[q] else b[q]

/-- `for q in first..last−1: S[q] <- 0` (R113). -/
def Buf.zeroRange (b : Buf) (first last : Nat) : Buf := b.mapRange first last fun _ => 0

/-! ## The staging buffer, byte by byte -/

/-- `BufWriteByte(o, v)` (R52): one lane of word `o >> 2` is written, its other three lanes stay. -/
def Buf.writeByte (lanes : LaneOrder) (b : Buf) (o : Nat) (v : Byte) : Buf :=
  b.setWord (o / 4)
    ((b.word (o / 4) &&& ~~~((0xFF : Word) <<< lanepos lanes (o % 4)))
      ||| (v.zeroExtend 32 <<< lanepos lanes (o % 4)))

/-- The byte at offset o of a buffer in stream packing (R51). -/
def Buf.readByte (lanes : LaneOrder) (b : Buf) (o : Nat) : Byte := laneByte lanes (b.word (o / 4)) (o % 4)

/-- Writes the bytes at the offsets o, o + 1, … in stream order (R105). -/
def Buf.writeBytes (lanes : LaneOrder) (b : Buf) (o : Nat) : List Byte → Buf
  | [] => b
  | v :: vs => Buf.writeBytes lanes (b.writeByte lanes o v) (o + 1) vs

/-! ## The endian swapper -/

/-- `Normalize(w)` (R171). -/
def normalize (lanes : LaneOrder) (w : Word) : Word :=
  match lanes with
  | .le => bswap w
  | .be => w

/-- Normalizes the words 0 to n − 1: all sixteen when a block completes (R172), `ceil(OFF/4)` in FINISH (R173). -/
def Buf.normalizeBelow (lanes : LaneOrder) (b : Buf) (n : Nat) : Buf := b.mapRange 0 n (normalize lanes)

/-- The state with another staging buffer and nothing else changed. -/
def State.setBuf (s : State) (b : Buf) : State := { s with buf := b }

/-! ## The length counter -/

/-- `OFF = L_LO[5:0]` (R23). -/
def State.off (s : State) : Nat := (s.lLo.extractLsb' 0 6).toNat

/-- The stream bytes held in the buffer and not yet compressed, in stream order (R23, R51). -/
def State.validBytes (s : State) : List Byte := (List.range s.off).map (Buf.readByte s.lanes s.buf)

/-- `L = {L_HI, L_LO}` (R21). -/
def State.byteCount (s : State) : BitVec 64 := s.lHi ++ s.lLo

/-- `CounterAdd(n)` (R104): a 33-bit sum whose carry goes into L_HI, which wraps without a flag (D21). -/
def State.counterAdd (s : State) (n : Nat) : State :=
  let sum : BitVec 33 := s.lLo.zeroExtend 33 + BitVec.ofNat 33 n
  { s with
    lLo := sum.extractLsb' 0 32
    lHi := if sum.getLsbD 32 then s.lHi + 1 else s.lHi }

/-! ## The command error and reset -/

/-- `raise CmdError(c)` (R202): ERR is set, ECAUSE keeps the first cause since reset, and nothing else changes. This
is the core's one way of taking an exception; nothing is entered and nothing returns from it (R206). -/
def State.raiseCmdError (s : State) (c : CmdCause) : State :=
  { s with
    ecause := if s.err then s.ecause else c.code
    err := true }

/-- A rising edge with rst = 1 (R220, R221, R222): every state element takes its reset value, whatever the sequencer
was doing. S and A..E, which R221 leaves unspecified, take free draws (log entry 2). LANE_ORDER is a
parameter, which reset does not change, and the host's own plans are not the core's to change. -/
def State.resetEdge (s : State) : State :=
  { State.reset with
    buf := Vector.ofFn fun q => Config.freeWord (s.draws + q.val)
    work :=
      ⟨Config.freeWord (s.draws + 16), Config.freeWord (s.draws + 17), Config.freeWord (s.draws + 18),
        Config.freeWord (s.draws + 19), Config.freeWord (s.draws + 20)⟩
    lanes := s.lanes
    draws := s.draws + 21
    host := s.host }

end Sys2Proof.Machine
end

