-- ==== Sys2Proof/Machine/Compress.lean ====
section
/-! DEFINITION. The Compression Round and the message-schedule expander (spec/41_compression.md rules R145 to
R151): LOAD, 80 times SCHEDULE and ROUND, FOLD. -/

namespace Sys2Proof.Machine

/-- f_t (R146): ch, parity, maj, parity, twenty rounds each. -/
def roundFn (t : Nat) (x y z : Word) : Word :=
  if t < 20 then ch x y z
  else if t < 40 then parity x y z
  else if t < 60 then maj x y z
  else parity x y z

/-- K_t (R145, R146). -/
def roundK (t : Nat) : Word :=
  if t < 20 then 0x5A827999
  else if t < 40 then 0x6ED9EBA1
  else if t < 60 then 0x8F1BBCDC
  else 0xCA62C1D6

/-- The write of SCHEDULE(t) (R149): from round 16 on, slot t mod 16 takes the next schedule word. -/
def Buf.schedule (b : Buf) (t : Nat) : Buf :=
  if 16 ≤ t then
    b.setWord t (rotl (b.word (t - 3) ^^^ b.word (t - 8) ^^^ b.word (t - 14) ^^^ b.word (t - 16)) 1)
  else b

/-- The five simultaneous writes of ROUND(t, Wt) (R150). -/
def WorkRegs.round (r : WorkRegs) (t : Nat) (wt : Word) : WorkRegs where
  a := rotl r.a 5 + roundFn t r.b r.c r.d + r.e + roundK t + wt
  b := r.a
  c := rotl r.b 30
  d := r.c
  e := r.d

/-- LOAD (R148). -/
def State.load (s : State) : State :=
  { s with work := ⟨s.h.h0, s.h.h1, s.h.h2, s.h.h3, s.h.h4⟩, t := 0 }

/-- One round step, SCHEDULE and then ROUND, at the index that T holds (R26, R149, R150). T ends one higher: 80 after
the last round (log entry 6). -/
def State.roundStep (s : State) : State :=
  { s with
    buf := s.buf.schedule s.t.toNat
    work := s.work.round s.t.toNat ((s.buf.schedule s.t.toNat).word s.t.toNat)
    t := s.t + 1 }

/-- The sums of FOLD (R151). -/
def HashRegs.addWork (h : HashRegs) (r : WorkRegs) : HashRegs :=
  ⟨h.h0 + r.a, h.h1 + r.b, h.h2 + r.c, h.h3 + r.d, h.h4 + r.e⟩

/-- FOLD (R151). -/
def State.fold (s : State) : State := { s with h := s.h.addWork s.work }

/-- `Compress()` (R147). -/
def State.compress (s : State) : State := (State.roundStep^[80] s.load).fold

end Sys2Proof.Machine
end

