-- ==== Sys2Proof/Machine/Hasher.lean ====
section
/-! DEFINITION. The meanings of the four commands, with the streaming buffer, the padding and the length words
(spec/40_hasher_commands.md rules R100 to R116). -/

namespace Sys2Proof.Machine

/-! ## START -/

/-- The writes of START (R102): H0..H4, both halves of L, and PHASE. -/
def State.startContext (s : State) : State :=
  { s with h := initialHash, lHi := 0, lLo := 0, phase := .active }

/-! ## UPDATE -/

/-- The loop of R103: each byte is deposited at offset o, and the byte at offset 63 completes the block, which is
normalized and compressed before the next byte goes to offset 0 (R107). -/
def State.deposit (s : State) (o : Nat) : List Byte → State
  | [] => s
  | v :: vs =>
    let s := s.setBuf (s.buf.writeByte s.lanes o v)
    if o + 1 = 64 then State.deposit (s.setBuf (s.buf.normalizeBelow s.lanes 16)).compress 0 vs
    else State.deposit s (o + 1) vs

/-- UPDATE of the given stream bytes (R103): the beat's count is added once, then its bytes go in at OFF. -/
def State.updateBytes (s : State) (vs : List Byte) : State := (s.counterAdd vs.length).deposit s.off vs

/-! ## FINISH -/

/-- `KEEP(v)` (R111): the bits of the v valid bytes of an internal-order word. -/
def keepMask (v : Nat) : Word := if v = 0 then 0 else (0xFFFFFFFF : Word) <<< (32 - 8 * v)

/-- `PADBIT(v)` (R111): the single 1 bit after the v valid bytes. -/
def padBit (v : Nat) : Word := (0x80 : Word) <<< (8 * (3 - v))

/-- FINISH steps 1 and 2 (R110, R111), with i valid bytes: the words that hold valid bytes are normalized, and word
`i >> 2` keeps its valid bytes and takes the padding bit. -/
def Buf.pad (lanes : LaneOrder) (b : Buf) (i : Nat) : Buf :=
  let n := b.normalizeBelow lanes ((i + 3) / 4)
  n.setWord (i / 4) ((n.word (i / 4) &&& keepMask (i % 4)) ||| padBit (i % 4))

/-- `BL_HI` (R114): the high word of the bit length L · 8 mod 2^64. -/
def State.bitLenHi (s : State) : Word := (s.lHi <<< 3) ||| (s.lLo >>> 29)

/-- `BL_LO` (R114): the low word of the bit length. -/
def State.bitLenLo (s : State) : Word := s.lLo <<< 3

/-- FINISH step 4 (R114): the length words, in internal order (R54). -/
def Buf.putLength (b : Buf) (hi lo : Word) : Buf := (b.setWord 14 hi).setWord 15 lo

/-- Steps 1 to 4 of a FINISH with OFF ≤ 55 (R110, R111, R113, R114). -/
def State.prepOneBlock (s : State) : State :=
  s.setBuf (((s.buf.pad s.lanes s.off).zeroRange (s.off / 4 + 1) 14).putLength s.bitLenHi s.bitLenLo)

/-- Steps 1 to 3 of a FINISH with OFF ≥ 56, up to its first compression (R110 to R113). -/
def State.prepFirstBlock (s : State) : State :=
  s.setBuf ((s.buf.pad s.lanes s.off).zeroRange (s.off / 4 + 1) 16)

/-- The fresh all-zero block with the length, after that first compression (R113, R114). -/
def State.prepLastBlock (s : State) : State :=
  s.setBuf ((s.buf.zeroRange 0 14).putLength s.bitLenHi s.bitLenLo)

/-- `PHASE <- 1` (R115). -/
def State.finalize (s : State) : State := { s with phase := .finalized }

/-- FINISH (R109): two compressions exactly when OFF ≥ 56 (R112), then PHASE <- 1. -/
def State.finishContext (s : State) : State :=
  if 56 ≤ s.off then s.prepFirstBlock.compress.prepLastBlock.compress.finalize
  else s.prepOneBlock.compress.finalize

/-! ## The meanings -/

/-- NOP (R101): no state changes. -/
def execNop (s : State) : Host.Outcome State Fault Refusal := .next s

/-- START (R102), legal in both phases. -/
def execStart (s : State) : Host.Outcome State Fault Refusal := .next s.startContext

/-- UPDATE nb, data (R103). A beat of 5 to 7 bytes is E_RSVD_NB, and a beat while PHASE = 1 is E_SEQ, checked in that
order before any state changes (R100, R203). -/
def execUpdate (nb : BitVec 3) (data : Word) (s : State) : Host.Outcome State Fault Refusal :=
  if 4 < nb.toNat then .next (s.raiseCmdError .rsvdNb)
  else if s.phase = .finalized then .next (s.raiseCmdError .seq)
  else .next (s.updateBytes (beatBytes s.lanes nb.toNat data))

/-- FINISH (R109). While PHASE = 1 it is E_SEQ (R201). -/
def execFinish (s : State) : Host.Outcome State Fault Refusal :=
  if s.phase = .finalized then .next (s.raiseCmdError .seq)
  else .next s.finishContext

end Sys2Proof.Machine
end

