-- ==== Sys2Proof/Machine/Dispatch.lean ====
section
/-! DEFINITION. One arm per command (spec/40_hasher_commands.md rule R100, "execute r"). -/

namespace Sys2Proof.Machine

def exec (i : Instr) (s : State) : Host.Outcome State Fault Refusal :=
  match i with
  | .nop => Sys2Proof.Machine.execNop s
  | .start => Sys2Proof.Machine.execStart s
  | .update nb data => Sys2Proof.Machine.execUpdate nb data s
  | .finish => Sys2Proof.Machine.execFinish s

end Sys2Proof.Machine
end

