-- ==== Sys2Proof/Machine/Flags.lean ====
section
/-! DEFINITION. The outputs, each a function of the state: the status word and its flags (spec/10_state.md rule
R33), cmd_ready (rule R36) and the digest port (spec/42_endian.md rule R175). -/

namespace Sys2Proof.Machine

/-- STATUS.BUSY: 1 when SEQ = BUSY (R33). -/
def State.busy (s : State) : Bool :=
  match s.seq with
  | .idle => false
  | .busy _ _ => true

/-- STATUS.DV: equals PHASE (R28, R33). -/
def State.digestValid (s : State) : Bool :=
  match s.phase with
  | .active => false
  | .finalized => true

/-- `STATUS[7:0]` (R33): bit 0 BUSY, bit 1 DV, bit 2 ERR, bits 5:3 ECAUSE, bits 7:6 read as 0. -/
def State.status (s : State) : BitVec 8 :=
  (0 : BitVec 2) ++ s.ecause ++ BitVec.ofBool s.err ++ BitVec.ofBool s.digestValid ++ BitVec.ofBool s.busy

/-- `cmd_ready`: 1 exactly when SEQ = IDLE and rst = 0 (R36, R220). -/
def State.cmdReady (s : State) (rst : Bool) : Bool := !s.busy && !rst

/-- H[n], for n in 0..4 (R55). -/
def HashRegs.word (h : HashRegs) (n : Nat) : Word :=
  match n with
  | 0 => h.h0
  | 1 => h.h1
  | 2 => h.h2
  | 3 => h.h3
  | _ => h.h4

/-- `digest[159:0] = { H0, H1, H2, H3, H4 }` (R175). The port follows H0..H4 at all times. -/
def HashRegs.digest (h : HashRegs) : BitVec 160 := h.h0 ++ h.h1 ++ h.h2 ++ h.h3 ++ h.h4

/-- The digest port (R36, R175). -/
def State.digest (s : State) : BitVec 160 := s.h.digest

/-- Digest byte n, 0 ≤ n ≤ 19, read off the port: `digest[159 − 8n : 152 − 8n]` (R175). -/
def State.digestByte (s : State) (n : Nat) : Byte := s.digest.extractLsb' (152 - 8 * n) 8

end Sys2Proof.Machine
end

