-- ==== Sys2Proof/Machine/Micro.lean ====
section
/-! DEFINITION. The clock level: one rising edge of clk, with the handshake, the busy micro-steps and reset
(spec/70_reset_and_hazards.md rules R220 to R226 and R229). The command level is `exec` and `step`; rule R231 says
that the two agree at every edge where cmd_ready = 1. The number of edges of a busy interval is the spec's nominal
design (R229, log entry 7). -/

namespace Sys2Proof.Machine

/-- The state with another sequencer position and nothing else changed. -/
def State.setSeq (s : State) (q : Seq) : State := { s with seq := q }

/-- The state with another pending-byte holder and nothing else changed. -/
def State.setPend (s : State) (vs : List Byte) : State := { s with pend := vs }

/-- The acceptance edge E of an UPDATE that completes a block (R229): the bytes up to offset 63 are deposited, the
rest wait in PEND (R107), and SEQ <- BUSY. -/
def State.beginBlock (s : State) (vs : List Byte) : State :=
  (((s.counterAdd vs.length).setBuf (s.buf.writeBytes s.lanes s.off (vs.take (64 - s.off)))).setPend
    (vs.drop (64 - s.off))).setSeq (.busy .updateBlock .prepare)

/-- The acceptance edge E of a beat of the given bytes: all effects at E when it completes no block (R226, R229). -/
def State.beginUpdate (s : State) (vs : List Byte) : State :=
  if s.off + vs.length < 64 then s.updateBytes vs else s.beginBlock vs

/-- The acceptance edge E of a FINISH (R229). -/
def State.beginFinish (s : State) : State :=
  s.setSeq (.busy (if 56 ≤ s.off then .finishFirst else .finishOne) .prepare)

/-- The acceptance edge E of a command: the checks of R100, and then the row of R229. -/
def State.beginInstr (s : State) : Instr → State
  | .nop => s
  | .start => s.startContext
  | .update nb data =>
    if 4 < nb.toNat then s.raiseCmdError .rsvdNb
    else if s.phase = .finalized then s.raiseCmdError .seq
    else s.beginUpdate (beatBytes s.lanes nb.toNat data)
  | .finish => if s.phase = .finalized then s.raiseCmdError .seq else s.beginFinish

/-- The acceptance edge E of a command word (R100, R229). -/
def State.beginWord (s : State) (w : CmdWord) : State :=
  match decode w with
  | .error c => s.raiseCmdError c
  | .ok i => s.beginInstr i

/-- What a job does to the buffer on its first busy edge, before LOAD (R229). -/
def State.prepare (s : State) : Job → State
  | .updateBlock => s.setBuf (s.buf.normalizeBelow s.lanes 16)
  | .finishOne => s.prepOneBlock
  | .finishFirst => s.prepFirstBlock
  | .finishLast => s.prepLastBlock

/-- What a job does on its last busy edge, after FOLD (R229). -/
def State.complete (s : State) : Job → State
  | .updateBlock =>
    ((s.setBuf (s.buf.writeBytes s.lanes 0 s.pend)).setPend []).setSeq .idle
  | .finishOne => s.finalize.setSeq .idle
  | .finishFirst => s.setSeq (.busy .finishLast .prepare)
  | .finishLast => s.finalize.setSeq .idle

/-- One busy edge (R229): prepare and LOAD, or ROUND T, or FOLD and what ends the job. Nothing happens in IDLE. -/
def State.microStep (s : State) : State :=
  match s.seq with
  | .idle => s
  | .busy job .prepare => (s.prepare job).load.setSeq (.busy job .rounds)
  | .busy job .rounds => if s.t.toNat < 80 then s.roundStep else s.fold.complete job

/-- One rising edge of clk with the given inputs. Reset wins over everything (R222); a command is accepted exactly
when rst = 0, cmd_valid = 1 and cmd_ready = 1 (R224); otherwise the sequencer goes on, or waits in IDLE (R214). -/
def clockEdge (p : PortIn) (s : State) : State :=
  if p.rst then s.resetEdge
  else if s.cmdReady p.rst then (if p.cmdValid then s.beginWord p.cmd else s)
  else s.microStep

/-- The edges with the given inputs, one after another, the first of the list first. -/
def clockRun : List PortIn → State → State
  | [], s => s
  | p :: ps, s => clockRun ps (clockEdge p s)

/-- The nominal busy cycles of a command in a state that accepts it (the table of R229). -/
def State.busyCycles (s : State) : Instr → Nat
  | .nop => 0
  | .start => 0
  | .update nb _ =>
    if 4 < nb.toNat ∨ s.phase = .finalized then 0 else if s.off + nb.toNat < 64 then 0 else 82
  | .finish => if s.phase = .finalized then 0 else if 56 ≤ s.off then 164 else 82

/-- The nominal busy cycles of a command word; an erroneous word has none (R229). -/
def State.wordBusyCycles (s : State) (w : CmdWord) : Nat :=
  match decode w with
  | .error _ => 0
  | .ok i => s.busyCycles i

end Sys2Proof.Machine
end

