-- ==== Sys2Proof/Machine/Port.lean ====
section
/-! DEFINITION. The command port at the command level: how a presented word is accepted and carried out as one
transition (spec/40_hasher_commands.md rule R100, spec/70_reset_and_hazards.md rules R220 to R226 and R231). -/

namespace Sys2Proof.Machine

/-- `accept(w)` of R100: a command error, or the command's rule run to its end as one transition (R231). E_SEQ is
checked by the commands that can raise it. -/
def accept (w : CmdWord) (s : State) : Host.Outcome State Fault Refusal :=
  match decode w with
  | .error c => .next (s.raiseCmdError c)
  | .ok i => exec i s

/-- The state with other coming port inputs and nothing else changed. -/
def State.setHost (s : State) (ps : List PortIn) : State := { s with host := ps }

/-- What happens at the next edge at which the core looks at its ports. Reset wins (R222). In IDLE a presented word is
accepted (R224), and with none presented the core waits (R214). In BUSY the sequencer takes its next micro-step, and
what the host presents is not taken and stays presented (R224). -/
def nextEdge (s : State) : Host.Outcome State Fault Refusal :=
  match s.host with
  | [] => .next s.microStep
  | p :: rest =>
    if p.rst then .next (s.setHost rest).resetEdge
    else if s.cmdReady p.rst then
      if p.cmdValid then accept p.cmd (s.setHost rest) else .next (s.setHost rest)
    else .next s.microStep

/-- The port inputs that present one command word: rst = 0, cmd_valid = 1. -/
def present (w : CmdWord) : PortIn := ⟨false, true, w⟩

/-- `s` in IDLE with the host about to present the word `w` before all else, so that the next step accepts it (R224). -/
def State.presentNext (s : State) (w : CmdWord) : State :=
  { s with seq := .idle, host := present w :: s.host }

end Sys2Proof.Machine
end

