-- ==== Sys2Proof/Machine/Step.lean ====
section
/-! DEFINITION. One step of the machine, and the host's way of giving it one instruction. -/

namespace Sys2Proof.Machine

/-- One step: the next edge at which the core looks at its ports, with an accepted command as one transition
(R17: "takes one step per command"; R231). -/
def step (s : State) : Host.Outcome State Fault Refusal := nextEdge s

/-- `s` with the host about to present the command word whose bits are `w`; bits at or above `nbits` are 0. A command
is pushed by the host and not fetched (R34, log entry 3). -/
def State.withFetchWord (s : State) (nbits w : Nat) : State :=
  s.presentNext (BitVec.ofNat 40 (w % 2 ^ nbits))

end Sys2Proof.Machine
end

