-- ==== Sys2Proof/Machine/Asm.lean ====
section
/-! DEFINITION. The assembler syntax and the pseudo-instructions UPDATE.B, FEED and HASH (spec/30_encoding.md rules
R80, R82 and R83), and running a list of commands in order (spec/20_memory.md rule R60). -/

namespace Sys2Proof.Machine

/-! ## UPDATE.B, FEED and HASH (R82, R83) -/

/-- Byte k of the list placed at `lanepos(k)`, for k from the given start on, with zero in the unused lanes (R82). -/
def packBytes (lanes : LaneOrder) (k : Nat) : List Byte → Word
  | [] => 0
  | v :: vs => (v.zeroExtend 32 <<< lanepos lanes k) ||| packBytes lanes (k + 1) vs

/-- The UPDATE command that carries the given bytes, four at most: `UPDATE n, d` of R82 (with none, the empty beat of
R81). -/
def beatInstr (lanes : LaneOrder) (vs : List Byte) : Instr :=
  .update (BitVec.ofNat 3 vs.length) (packBytes lanes 0 vs)

/-- The beats of FEED (R83): bytes 0..3, then 4..7, and so on, the last beat with the 1 to 3 bytes left over. -/
def feedBeats : List Byte → List (List Byte)
  | [] => []
  | [a] => [[a]]
  | [a, b] => [[a, b]]
  | [a, b, c] => [[a, b, c]]
  | a :: b :: c :: d :: rest => [a, b, c, d] :: feedBeats rest

/-- FEED (R83). -/
def feedProgram (lanes : LaneOrder) (vs : List Byte) : List Instr := (feedBeats vs).map (beatInstr lanes)

/-- START, the given beats, FINISH. -/
def beatsProgram (lanes : LaneOrder) (beats : List (List Byte)) : List Instr :=
  .start :: (beats.map (beatInstr lanes) ++ [.finish])

/-- HASH (R83): START, then FEED, then FINISH. -/
def hashProgram (lanes : LaneOrder) (vs : List Byte) : List Instr := beatsProgram lanes (feedBeats vs)

/-- The commands one after another, each taking full effect before the next (R60). -/
def execAll : List Instr → State → Host.Outcome State Fault Refusal
  | [], s => .next s
  | i :: is, s =>
    match exec i s with
    | .next t => execAll is t
    | .fault r => .fault r
    | .refused r => .refused r

/-! ## Assembler lines (R80) -/

/-- What one line of the assembler syntax says. -/
inductive AsmLine where
  /-- `NOP`, `START`, `UPDATE nb, data` or `FINISH`. -/
  | command (i : Instr)
  /-- `.cmd 0x<10 hex digits>`. -/
  | raw (w : CmdWord)
  /-- `UPDATE.B b0[, b1[, b2[, b3]]]`. -/
  | updateB (vs : List Byte)
  /-- `FEED <bytes>`. -/
  | feed (vs : List Byte)
  /-- `HASH <bytes>`. -/
  | hash (vs : List Byte)
  deriving DecidableEq, Repr

/-- The command words of a line; none when an operand is out of range. -/
def AsmLine.assemble (lanes : LaneOrder) : AsmLine → Option (List CmdWord)
  | .command i => if i.wellFormed then some [encode i] else none
  | .raw w => some [w]
  | .updateB vs => if 1 ≤ vs.length ∧ vs.length ≤ 4 then some [encode (beatInstr lanes vs)] else none
  | .feed vs => some ((feedProgram lanes vs).map encode)
  | .hash vs => some ((hashProgram lanes vs).map encode)

/-! ## Writing a line as text -/

/-- The hexadecimal digit of a number below 16. -/
def hexDigit (n : Nat) : Char :=
  if n < 10 then Char.ofNat (48 + n) else Char.ofNat (55 + n)

/-- The lowest `digits` hexadecimal digits of a number, the highest digit first. -/
def hexText : Nat → Nat → List Char
  | 0, _ => []
  | digits + 1, n => hexText digits (n / 16) ++ [hexDigit (n % 16)]

/-- The text of a disassembled word (R80). DESIGN CHOICE, log entry 8: a word with nonzero ignored bits prints as its
mnemonic, without them, where R80 fixes only the text of a word that matches no mnemonic. -/
def disassemble (w : CmdWord) : List Char :=
  match decode w with
  | .ok .nop => ['N', 'O', 'P']
  | .ok .start => ['S', 'T', 'A', 'R', 'T']
  | .ok (.update nb data) =>
    ['U', 'P', 'D', 'A', 'T', 'E', ' ', hexDigit nb.toNat, ',', ' ', '0', 'x'] ++ hexText 8 data.toNat
  | .ok .finish => ['F', 'I', 'N', 'I', 'S', 'H']
  | .error _ => ['.', 'c', 'm', 'd', ' ', '0', 'x'] ++ hexText 10 w.toNat

/-! ## Reading a line of text -/

/-- Space, tab or carriage return. -/
def isBlank (c : Char) : Bool := c == ' ' || c == '\t' || c == '\r'

/-- The text without the blanks at both ends. -/
def trimBlanks (cs : List Char) : List Char := ((cs.dropWhile isBlank).reverse.dropWhile isBlank).reverse

/-- The text up to a `;`, which begins a comment (R80). Inside a quoted string it begins none (log entry 8). -/
def stripComment : Bool → List Char → List Char
  | _, [] => []
  | quoted, c :: cs =>
    if c = ';' ∧ quoted = false then [] else c :: stripComment (if c = '"' then !quoted else quoted) cs

/-- The pieces of a text between occurrences of a separator. -/
def splitAtChar (sep : Char) : List Char → List (List Char)
  | [] => [[]]
  | c :: cs =>
    if c = sep then [] :: splitAtChar sep cs
    else
      match splitAtChar sep cs with
      | [] => [[c]]
      | p :: ps => (c :: p) :: ps

/-- The value of a digit in a base of at most 16. -/
def digitValue (base : Nat) (c : Char) : Option Nat :=
  let n := c.toNat
  let v :=
    if 48 ≤ n ∧ n ≤ 57 then n - 48
    else if 97 ≤ n ∧ n ≤ 102 then n - 87
    else if 65 ≤ n ∧ n ≤ 70 then n - 55
    else 16
  if v < base then some v else none

/-- The number written by the digits, highest first, on top of the part read so far. -/
def digitsValue (base acc : Nat) : List Char → Option Nat
  | [] => some acc
  | c :: cs =>
    match digitValue base c with
    | some v => digitsValue base (acc * base + v) cs
    | none => none

/-- "A number is decimal or `0x` hexadecimal" (R80). -/
def readNumber (cs : List Char) : Option Nat :=
  match trimBlanks cs with
  | [] => none
  | ['0', 'x'] => none
  | '0' :: 'x' :: ds => digitsValue 16 0 ds
  | ds => digitsValue 10 0 ds

/-- A number below 256. -/
def readByteValue (cs : List Char) : Option Byte :=
  match readNumber cs with
  | some n => if n < 256 then some (BitVec.ofNat 8 n) else none
  | none => none

/-- `<bytes>` of FEED and HASH: a quoted ASCII string or a list of byte values (R83). DESIGN CHOICE, log entry 8: R83
does not say how the list is written; here its values stand between commas, as those of UPDATE.B do (R82), and a list
without a value is refused, so that the empty string is written `""`. -/
def readBytes (cs : List Char) : Option (List Byte) :=
  match trimBlanks cs with
  | '"' :: rest =>
    match splitAtChar '"' rest with
    | [text, []] => if text.all (fun c => c.toNat < 128) then some (text.map fun c => BitVec.ofNat 8 c.toNat) else none
    | _ => none
  | list => (splitAtChar ',' list).mapM readByteValue

/-- The operands `<nb>, <data>` of UPDATE: nb in 0..4 and a 32-bit number (R80). -/
def readUpdate (cs : List Char) : Option AsmLine :=
  match (splitAtChar ',' cs).mapM readNumber with
  | some [nb, data] =>
    if nb ≤ 4 ∧ data < 2 ^ 32 then some (.command (.update (BitVec.ofNat 3 nb) (BitVec.ofNat 32 data))) else none
  | _ => none

/-- The operand `0x<10 hex digits>` of `.cmd` (R80). DESIGN CHOICE, log entry 8: R80 gives `.cmd` for a word that
matches no mnemonic and does not say whether it may spell another; here it spells any 40-bit word. -/
def readRaw (cs : List Char) : Option AsmLine :=
  match trimBlanks cs with
  | '0' :: 'x' :: ds =>
    if ds.length = 10 then (digitsValue 16 0 ds).map fun n => .raw (BitVec.ofNat 40 n) else none
  | _ => none

/-- One line that is not blank: a mnemonic in any case, and its operands. -/
def readCommand (cs : List Char) : Option AsmLine :=
  let name := (cs.takeWhile fun c => !isBlank c).map Char.toLower
  let operands := trimBlanks (cs.dropWhile fun c => !isBlank c)
  if name = ['n', 'o', 'p'] then (if operands = [] then some (.command .nop) else none)
  else if name = ['s', 't', 'a', 'r', 't'] then (if operands = [] then some (.command .start) else none)
  else if name = ['f', 'i', 'n', 'i', 's', 'h'] then (if operands = [] then some (.command .finish) else none)
  else if name = ['u', 'p', 'd', 'a', 't', 'e'] then readUpdate operands
  else if name = ['.', 'c', 'm', 'd'] then readRaw operands
  else if name = ['u', 'p', 'd', 'a', 't', 'e', '.', 'b'] then
    ((splitAtChar ',' operands).mapM readByteValue).map .updateB
  else if name = ['f', 'e', 'e', 'd'] then (readBytes operands).map .feed
  else if name = ['h', 'a', 's', 'h'] then (readBytes operands).map .hash
  else none

/-- The command words of one line of text: none of them for a blank line or a comment (R80). -/
def assembleLine (lanes : LaneOrder) (cs : List Char) : Option (List CmdWord) :=
  match trimBlanks (stripComment false cs) with
  | [] => some []
  | line => (readCommand line).bind (AsmLine.assemble lanes)

/-- The command words of a text, one command per line (R80). -/
def assembleText (lanes : LaneOrder) (cs : List Char) : Option (List CmdWord) :=
  ((splitAtChar '\n' cs).mapM (assembleLine lanes)).map List.flatten

end Sys2Proof.Machine
end

