-- ==== Sys2Proof/Machine/Reference.lean ====
section
/-! DEFINITION. The hash of a whole byte stream, written from the spec without the core's buffer, window and counter:
the padded message, cut into blocks, each compressed over the full 80-word expansion (spec/41_compression.md rule R152,
spec/40_hasher_commands.md rules R111 to R114). Claims compare the core with it; no meaning uses it. -/

namespace Sys2Proof.Machine

/-- The words of a byte string, each with its first byte in bits 31:24 (R53). A rest of 1 to 3 bytes gives none. -/
def beWords : List Byte → List Word
  | a :: b :: c :: d :: rest => (a ++ b ++ c ++ d : BitVec 32) :: beWords rest
  | _ => []

/-- The sixteen block words followed by n words of the full expansion (R152):
`W_t = rotl(W_{t−3} ^ W_{t−8} ^ W_{t−14} ^ W_{t−16}, 1)`. -/
def fullSchedule (block : List Word) : Nat → List Word
  | 0 => block
  | n + 1 =>
    let ws := fullSchedule block n
    ws ++ [rotl (ws.getD (n + 13) 0 ^^^ ws.getD (n + 8) 0 ^^^ ws.getD (n + 2) 0 ^^^ ws.getD n 0) 1]

/-- One compression of a block over the 80 words W_0..W_79 (R148, R150, R151, R152). -/
def refCompress (h : HashRegs) (block : List Word) : HashRegs :=
  let ws := fullSchedule block 64
  h.addWork
    ((List.range 80).foldl (fun r t => r.round t (ws.getD t 0)) ⟨h.h0, h.h1, h.h2, h.h3, h.h4⟩)

/-- The eight bytes of a 64-bit number, high byte first. -/
def be64 (x : BitVec 64) : List Byte :=
  [x.extractLsb' 56 8, x.extractLsb' 48 8, x.extractLsb' 40 8, x.extractLsb' 32 8,
   x.extractLsb' 24 8, x.extractLsb' 16 8, x.extractLsb' 8 8, x.extractLsb' 0 8]

/-- The padded message (R111 to R114): the bytes, the padding bit, zeros up to a multiple of 64 bytes less 8, and the
bit length modulo 2^64, high word first. -/
def paddedStream (vs : List Byte) : List Byte :=
  vs ++ ((0x80 : Byte) :: List.replicate ((119 - vs.length % 64) % 64) 0) ++ be64 (BitVec.ofNat 64 (8 * vs.length))

/-- The chaining value after the first n blocks of 64 bytes. -/
def refBlocks (h : HashRegs) : Nat → List Byte → HashRegs
  | 0, _ => h
  | n + 1, vs => refBlocks (refCompress h (beWords (vs.take 64))) n (vs.drop 64)

/-- The hash words of a byte stream. For streams of fewer than 2^61 bytes this is SHA-1 as R1 names it (D21). -/
def streamHash (vs : List Byte) : HashRegs := refBlocks initialHash ((paddedStream vs).length / 64) (paddedStream vs)

end Sys2Proof.Machine
end

