-- ==== Sys2Proof/Safety.lean ====
section
/-! DEFINITION. What counts as a safe run, in the terms claims use: the faulted runs of
spec/60_exceptions.md rule R205, the edges at which the digest may be read (spec/70_reset_and_hazards.md rule R227),
and the invariant of the state elements. -/

namespace Sys2Proof.Machine

/-- The state shows a command error: ERR = 1 (R205). A reset clears ERR (R204), but not the fault of the run it stands
in: that is `faultedRun`. -/
def State.faulted (s : State) : Bool := s.err

/-- The host's condition for reading the digest port (R227): STATUS.DV = 1 and STATUS.BUSY = 0. It is the port's
condition alone; what may be claimed of a run is `digestOfRun`. -/
def State.digestReadable (s : State) : Bool := s.digestValid && !s.busy

/-- R205: the n steps from `s` are a faulted run: ERR is 1 in `s` or becomes 1 in one of them. "The fault is never
cleared within the run": a reset in it does not clear it. -/
def faultedRun : Nat → State → Bool
  | 0, s => s.faulted
  | n + 1, s =>
    s.faulted ||
      match step s with
      | .next t => faultedRun n t
      | .fault _ => true
      | .refused _ => true

/-- The message digest that a claim may name after n steps from `s`: what the port shows, if the host may read it then
(R227) and the run is not faulted; of a faulted run "no claim about a digest holds" (R205), so there is none. -/
def digestOfRun (n : Nat) (s : State) : Option (BitVec 160) :=
  if faultedRun n s then none
  else
    match Host.Core.run Sys2Proof.core n s with
    | .next t => if State.digestReadable t then some (State.digest t) else none
    | .fault _ => none
    | .refused _ => none

/-- R205 at the clock level: ERR is 1 in `s` or becomes 1 at one of the edges. -/
def faultedEdges : List PortIn → State → Bool
  | [], s => s.faulted
  | p :: ps, s => s.faulted || faultedEdges ps (clockEdge p s)

/-- The message digest that a claim may name after the edges, as `digestOfRun`. -/
def digestOfEdges (ps : List PortIn) (s : State) : Option (BitVec 160) :=
  if faultedEdges ps s then none
  else if (clockRun ps s).digestReadable then some (clockRun ps s).digest
  else none

/-- What SEQ implies (R31, R32, R229): in IDLE no byte is pending; a job of an UPDATE has OFF bytes pending, fewer than
4; a job of FINISH has none pending and OFF on its side of the threshold of R112; no job runs in PHASE = 1. -/
def State.seqInv (s : State) : Bool :=
  match s.seq with
  | .idle => decide (s.pend = [])
  | .busy .updateBlock _ => decide (s.phase = .active ∧ s.pend.length ≤ 3 ∧ s.off = s.pend.length)
  | .busy .finishOne _ => decide (s.phase = .active ∧ s.pend = [] ∧ s.off ≤ 55)
  | .busy .finishFirst _ => decide (s.phase = .active ∧ s.pend = [] ∧ 56 ≤ s.off)
  | .busy .finishLast _ => decide (s.phase = .active ∧ s.pend = [] ∧ 56 ≤ s.off)

/-- The invariant of the state: ECAUSE is 0 exactly while ERR = 0 and never 5, 6 or 7 (R30, R201); T is at most 80
(R26, log entry 6); PEND and SEQ fit together. -/
abbrev State.Inv (s : State) : Prop :=
  (s.err = false ↔ s.ecause = 0) ∧ s.ecause.toNat ≤ 4 ∧ s.t.toNat ≤ 80 ∧ s.seqInv = true

/-- The elements of R221's table for which it gives a value, each at that value. S and A..E are unspecified there. -/
abbrev State.HoldsResetValues (s : State) : Prop :=
  s.h = ⟨0x67452301, 0xEFCDAB89, 0x98BADCFE, 0x10325476, 0xC3D2E1F0⟩ ∧ s.lHi = 0 ∧ s.lLo = 0 ∧ s.t = 0 ∧
    s.pend = [] ∧ s.phase = .active ∧ s.err = false ∧ s.ecause = 0 ∧ s.seq = .idle

/-- Two states with the same context: they agree on H, L, PHASE, ERR, ECAUSE and SEQ and, while ACTIVE, on the bytes of
the stream that are not yet compressed, each read through its own LANE_ORDER. They may differ in all that R119 calls
stale (the rest of S), in A..E, in T and in LANE_ORDER (R178). -/
abbrev State.SameContext (s t : State) : Prop :=
  s.h = t.h ∧ s.lHi = t.lHi ∧ s.lLo = t.lLo ∧ s.phase = t.phase ∧ s.err = t.err ∧ s.ecause = t.ecause ∧
    s.seq = t.seq ∧ (s.phase = .active → s.validBytes = t.validBytes)

end Sys2Proof.Machine
end

