-- ==== Sys2Proof/Certificates/Slice0/Obligations.lean ====
section
/-! DEFINITION. The statements for the provers, one `def Obligations.<Name> : Prop` each. Every docstring names the
rules of spec/ that its statement formalises. -/

open Sys2Proof Sys2Proof.Machine

/-! ## The command word -/

/-- Every well-formed command is the one the decoder reads from its word: no bit of NB or DATA is dropped. And every
word that decodes has a well-formed command, whose own word is that word with the ignored bits cleared (R70, R76, R78,
R79, R80). -/
def Obligations.DecodeAndEncodeAgree : Prop :=
  (∀ i : Instr, i.wellFormed = true → decode (encode i) = .ok i) ∧
    ∀ (w : CmdWord) (i : Instr), decode w = .ok i → i.wellFormed = true ∧ encode i = w &&& i.usedBits

/-- R76: a word is the command in a row exactly when `w & mask = match`, and NB ≤ 4 for UPDATE; the rows do not overlap;
any other word is a command error. -/
def Obligations.DecodeFollowsMatchAndMaskRows : Prop :=
  (opcodeRows.Pairwise fun r r' => ∀ w, ¬(r.matchesWord w = true ∧ r'.matchesWord w = true)) ∧
    ∀ w : CmdWord,
      (decode w = .ok .nop ↔ w &&& 0xF800000000 = 0x0000000000) ∧
      (decode w = .ok .start ↔ w &&& 0xF800000000 = 0x1000000000) ∧
      (decode w = .ok .finish ↔ w &&& 0xF800000000 = 0x3000000000) ∧
      (∀ nb data, decode w = .ok (.update nb data) ↔
        w &&& 0xF800000000 = 0x2000000000 ∧ nb = nbField w ∧ data = dataField w ∧ nb.toNat ≤ 4) ∧
      ((∃ c, decode w = .error c) ↔
        (∀ r ∈ opcodeRows, r.matchesWord w = false) ∨
          (w &&& 0xF800000000 = 0x2000000000 ∧ 4 < (nbField w).toNat))

/-- R77: the illegal encodings, and no others, are decode errors, each with its cause; E_SEQ is not a decode error
(R79). -/
def Obligations.IllegalEncodingsAndTheirCauses : Prop :=
  ∀ w : CmdWord,
    (decode w = .error .rsvdOpc ↔ 4 ≤ (opcField w).toNat) ∧
    (decode w = .error .rsvdBit ↔ (opcField w).toNat < 4 ∧ rsvField w = true) ∧
    (decode w = .error .rsvdNb ↔ opcField w = 2 ∧ rsvField w = false ∧ 4 < (nbField w).toNat) ∧
    decode w ≠ .error .seq

/-- R78: NOP, START and FINISH accept any NB and DATA, and RSV is checked for every opcode. -/
def Obligations.IgnoredFieldsAcceptAnyValue : Prop :=
  ∀ (nb : BitVec 3) (data : Word),
    decode (packWord 0 0 nb data) = .ok .nop ∧ decode (packWord 1 0 nb data) = .ok .start ∧
      decode (packWord 3 0 nb data) = .ok .finish ∧
      ∀ opc : BitVec 4, opc.toNat < 4 → decode (packWord opc 1 nb data) = .error .rsvdBit

/-- R81: the worked encodings, read by the decoder and written by the encoder. -/
def Obligations.WorkedEncodings : Prop :=
  (encode .start = 0x1000000000 ∧ decode 0x1000000000 = .ok .start) ∧
    (encode .finish = 0x3000000000 ∧ decode 0x3000000000 = .ok .finish) ∧
    (encode .nop = 0x0000000000 ∧ decode 0x0000000000 = .ok .nop) ∧
    (beatInstr .le [0x61, 0x62, 0x63] = .update 3 0x00636261 ∧
      encode (.update 3 0x00636261) = 0x2300636261 ∧ decode 0x2300636261 = .ok (.update 3 0x00636261)) ∧
    (beatInstr .be [0x61, 0x62, 0x63] = .update 3 0x61626300 ∧
      encode (.update 3 0x61626300) = 0x2361626300 ∧ decode 0x2361626300 = .ok (.update 3 0x61626300)) ∧
    (beatInstr .le [] = .update 0 0 ∧ encode (.update 0 0) = 0x2000000000 ∧
      decode 0x2000000000 = .ok (.update 0 0))

/-- R82: UPDATE.B takes one to four byte values, and the UPDATE that it expands to carries exactly those bytes, in
stream order, under either LANE_ORDER, and has zero in the unused lanes; with the rule's example. -/
def Obligations.UpdateByteFormCarriesItsBytes : Prop :=
  (∀ (lanes : LaneOrder) (vs : List Byte),
    (1 ≤ vs.length ∧ vs.length ≤ 4 →
      ∃ (nb : BitVec 3) (data : Word),
        (AsmLine.updateB vs).assemble lanes = some [encode (.update nb data)] ∧ nb.toNat = vs.length ∧
          beatBytes lanes nb.toNat data = vs ∧ ∀ k, vs.length ≤ k → k < 4 → laneByte lanes data k = 0) ∧
    (¬(1 ≤ vs.length ∧ vs.length ≤ 4) → (AsmLine.updateB vs).assemble lanes = none)) ∧
  (AsmLine.updateB [0x61, 0x62]).assemble .le = some [0x2200006261]

/-- R83: FEED cuts a byte string into `ceil(len/4)` beats of four bytes, the last with the 1 to 3 bytes left over; HASH
is START, FEED, FINISH. -/
def Obligations.FeedCutsBytesIntoBeatsOfFour : Prop :=
  ∀ (lanes : LaneOrder) (vs : List Byte),
    (feedBeats vs).flatten = vs ∧ (feedBeats vs).length = (vs.length + 3) / 4 ∧
      (∀ k, k + 1 < (feedBeats vs).length → ((feedBeats vs).getD k []).length = 4) ∧
      (∀ beat ∈ feedBeats vs, 1 ≤ beat.length ∧ beat.length ≤ 4) ∧
      (AsmLine.feed vs).assemble lanes = some ((feedBeats vs).map fun beat => encode (beatInstr lanes beat)) ∧
      (AsmLine.hash vs).assemble lanes =
        some (encode .start :: ((feedBeats vs).map fun beat => encode (beatInstr lanes beat)) ++ [encode .finish])

/-- R80: the disassembler's text of a word that matches no mnemonic is the `.cmd` line, which assembles to that very
word. The text of a word that decodes is one assembler line, which assembles to the word of the same command, with the
ignored bits cleared: this clause is the model's choice (log entry 8), since R80 does not say how a word with nonzero
ignored bits is printed. -/
def Obligations.DisassembledTextAssemblesBack : Prop :=
  ∀ (lanes : LaneOrder) (w : CmdWord),
    assembleLine lanes (disassemble w) =
      match decode w with
      | .ok i => some [encode i]
      | .error _ => some [w]

/-! ## A step -/

/-- R100, R224: in IDLE, a presented word that decodes to a command is taken off the port and that command is executed
on the state; nothing is added around it. (That the port's coming inputs stand in the state is the model's form of the
host, log entry 3.) -/
def Obligations.StepRunsTheDecodedCommand : Prop :=
  ∀ (s : State) (p : PortIn) (rest : List PortIn) (i : Instr),
    s.seq = .idle → s.host = p :: rest → p.rst = false → p.cmdValid = true → decode p.cmd = .ok i →
      step s = exec i { s with host := rest }

/-- R202: a word with an error cause c, found by the decoder or, for E_SEQ, by the phase check, is consumed; ERR is set,
ECAUSE keeps the first cause, and nothing else changes: SEQ stays IDLE. -/
def Obligations.ErroneousWordWritesOnlyErrAndEcause : Prop :=
  ∀ (s : State) (p : PortIn) (rest : List PortIn) (c : CmdCause),
    s.seq = .idle → s.host = p :: rest → p.rst = false → p.cmdValid = true →
    (decode p.cmd = .error c ∨
      (c = .seq ∧ s.phase = .finalized ∧
        (decode p.cmd = .ok .finish ∨ ∃ nb data, decode p.cmd = .ok (.update nb data)))) →
      step s =
        .next { s with host := rest, err := true, ecause := if s.err then s.ecause else c.code }

/-- R203: of several causes the word's first one in the order E_RSVD_OPC, E_RSVD_BIT, E_RSVD_NB, E_SEQ is reported. The
codes are those of R201. -/
def Obligations.FirstCauseInPriorityOrderIsReported : Prop :=
  ∀ (w : CmdWord) (s : State),
    let raised (code : BitVec 3) : Host.Outcome State Fault Refusal :=
      .next { s with err := true, ecause := if s.err then s.ecause else code }
    (4 ≤ (opcField w).toNat → accept w s = raised 1) ∧
    ((opcField w).toNat < 4 → rsvField w = true → accept w s = raised 2) ∧
    (opcField w = 2 → rsvField w = false → 4 < (nbField w).toNat → accept w s = raised 3) ∧
    (opcField w = 2 → rsvField w = false → (nbField w).toNat ≤ 4 → s.phase = .finalized →
      accept w s = raised 4) ∧
    (opcField w = 3 → rsvField w = false → s.phase = .finalized → accept w s = raised 4)

/-- R204: once set, ERR and ECAUSE keep their values through every step but a reset, which clears both, and a legal
command does with ERR set what it does without. -/
def Obligations.ErrIsStickyAndCommandsStillRun : Prop :=
  (∀ s t : State, s.err = true → (∀ p ∈ s.host.head?, p.rst = false) → step s = .next t →
    t.err = true ∧ t.ecause = s.ecause) ∧
  (∀ (s : State) (p : PortIn) (rest : List PortIn), s.host = p :: rest → p.rst = true →
    ∃ t, step s = .next t ∧ t.err = false ∧ t.ecause = 0) ∧
  (∀ (i : Instr) (s : State) (e : Bool) (c : BitVec 3), i.wellFormed = true →
    (s.phase = .active ∨ i = .nop ∨ i = .start) →
    ∃ t, exec i s = .next t ∧ t.err = s.err ∧ t.ecause = s.ecause ∧
      exec i { s with err := e, ecause := c } = .next { t with err := e, ecause := c })

/-- R201, R28: while PHASE = 1, a well-formed UPDATE and a FINISH raise E_SEQ (code 4) and do nothing else. -/
def Obligations.UpdateAndFinishRaiseSequenceErrorWhenFinalized : Prop :=
  ∀ s : State, s.phase = .finalized →
    (∀ (nb : BitVec 3) (data : Word), nb.toNat ≤ 4 →
      exec (.update nb data) s = .next { s with err := true, ecause := if s.err then s.ecause else 4 }) ∧
    exec .finish s = .next { s with err := true, ecause := if s.err then s.ecause else 4 }

/-- R221: every element with a reset value takes it, at power-on and at every reset edge; STATUS, OFF and the digest
port follow; LANE_ORDER is not changed; and the core is then as START leaves it. -/
def Obligations.ResetGivesEveryElementItsValue : Prop :=
  State.reset.HoldsResetValues ∧
    ∀ s : State,
      s.resetEdge.HoldsResetValues ∧ s.resetEdge.off = 0 ∧ s.resetEdge.status = 0x00 ∧
        s.resetEdge.digest = 0x67452301EFCDAB8998BADCFE10325476C3D2E1F0 ∧ s.resetEdge.lanes = s.lanes ∧
        exec .start s.resetEdge = .next s.resetEdge

/-- R222: reset wins over a command presented on the same edge and over a command in progress. -/
def Obligations.ResetWinsOverEverything : Prop :=
  ∀ (s : State) (p : PortIn), p.rst = true →
    (clockEdge p s).HoldsResetValues ∧ (clockEdge p s).lanes = s.lanes ∧
      (∀ q : PortIn, q.rst = true → clockEdge q s = clockEdge p s) ∧
      ∀ rest, s.host = p :: rest →
        ∃ t, step s = .next t ∧ t.HoldsResetValues ∧ t.lanes = s.lanes ∧ t.host = rest

/-- R224, R225: a word is accepted exactly when rst = 0, cmd_valid = 1 and cmd_ready = 1; while the core is BUSY its
inputs other than rst are not read, and a presented word stays presented. -/
def Obligations.WordIsAcceptedExactlyWhenReady : Prop :=
  ∀ (s : State) (p : PortIn),
    (s.cmdReady p.rst = true ↔ s.seq = .idle ∧ p.rst = false) ∧
    (p.rst = false → p.cmdValid = true → s.cmdReady p.rst = true → clockEdge p s = s.beginWord p.cmd) ∧
    (p.rst = false → p.cmdValid = false → s.cmdReady p.rst = true → clockEdge p s = s) ∧
    (p.rst = false → s.cmdReady p.rst = false →
      (∀ q : PortIn, q.rst = false → clockEdge q s = clockEdge p s) ∧
      ∀ rest, s.host = p :: rest → step s = .next (clockEdge p s) ∧ (clockEdge p s).host = p :: rest)

/-- R230, R200: no command can hang or stop the core: every step gives a next state. -/
def Obligations.EveryStepGivesANextState : Prop :=
  ∀ s : State, ∃ t, step s = .next t

/-- R8, R56: LANE_ORDER cannot change at run time. -/
def Obligations.LaneOrderNeverChanges : Prop :=
  ∀ (s t : State), step s = .next t → t.lanes = s.lanes

/-! ## The commands -/

/-- R101: NOP changes nothing, whatever NB and DATA hold; with RSV = 1 it is E_RSVD_BIT. -/
def Obligations.NopChangesNothing : Prop :=
  ∀ s : State,
    exec .nop s = .next s ∧
      ∀ (nb : BitVec 3) (data : Word),
        accept (packWord 0 0 nb data) s = .next s ∧
          accept (packWord 0 1 nb data) s =
            .next { s with err := true, ecause := if s.err then s.ecause else 2 }

/-- R102: START, whatever NB and DATA hold and in either phase, sets H0..H4 to the constants, clears L and PHASE, and
changes nothing else; a second START changes nothing more; OFF and DV are 0 afterwards, and STATUS is 0x00 when ERR = 0.
With RSV = 1 it is E_RSVD_BIT. -/
def Obligations.StartBeginsANewHash : Prop :=
  ∀ s : State,
    ∃ t : State, exec .start s = .next t ∧
      t = { s with
        h := ⟨0x67452301, 0xEFCDAB89, 0x98BADCFE, 0x10325476, 0xC3D2E1F0⟩, lHi := 0, lLo := 0, phase := .active } ∧
      t.off = 0 ∧ t.digestValid = false ∧ exec .start t = .next t ∧
      (s.Inv → s.seq = .idle → s.err = false → t.status = 0x00) ∧
      ∀ (nb : BitVec 3) (data : Word),
        accept (packWord 1 0 nb data) s = .next t ∧
          accept (packWord 1 1 nb data) s =
            .next { s with err := true, ecause := if s.err then s.ecause else 2 }

/-- R104: UPDATE adds its byte count to the 64-bit length counter, with the carry of L_LO going into L_HI, which wraps
without a flag. -/
def Obligations.UpdateAddsItsByteCountWithCarry : Prop :=
  ∀ (s : State) (nb : BitVec 3) (data : Word), s.phase = .active → nb.toNat ≤ 4 →
    ∃ t, exec (.update nb data) s = .next t ∧
      t.byteCount = s.byteCount + nb.zeroExtend 64 ∧ t.err = s.err ∧ t.ecause = s.ecause ∧
      (s.lLo.toNat + nb.toNat < 2 ^ 32 → t.lHi = s.lHi ∧ t.lLo.toNat = s.lLo.toNat + nb.toNat) ∧
      (2 ^ 32 ≤ s.lLo.toNat + nb.toNat →
        t.lHi = s.lHi + 1 ∧ t.lLo.toNat = s.lLo.toNat + nb.toNat - 2 ^ 32)

/-- R103, R105, R52: a beat that completes no block puts byte k of the beat at offset OFF + k, leaves every other byte of
the buffer as it was, adds its count to L, and changes nothing else. -/
def Obligations.UpdateDepositsItsBytesAtTheFillOffset : Prop :=
  ∀ (s : State) (nb : BitVec 3) (data : Word), s.phase = .active → nb.toNat ≤ 4 → s.off + nb.toNat < 64 →
    ∃ (hi lo : Word) (b : Buf),
      exec (.update nb data) s = .next { s with lHi := hi, lLo := lo, buf := b } ∧
        (hi ++ lo : BitVec 64) = s.byteCount + nb.zeroExtend 64 ∧
        (∀ k, k < nb.toNat → b.readByte s.lanes (s.off + k) = laneByte s.lanes data k) ∧
        (∀ o, o < 64 → o < s.off ∨ s.off + nb.toNat ≤ o → b.readByte s.lanes o = s.buf.readByte s.lanes o)

/-- R103, R107, R153: a beat that fills offset 63 compresses the 64 bytes of the block into H, puts its other bytes at
the offsets 0, 1, …, of a buffer that otherwise holds W_64..W_79, adds its count to L, and changes nothing else but
A..E and T, whose values have no meaning outside a compression (R25, R26). -/
def Obligations.UpdateCompletingABlockCompressesIt : Prop :=
  ∀ (s : State) (nb : BitVec 3) (data : Word), s.phase = .active → nb.toNat ≤ 4 → 64 ≤ s.off + nb.toNat →
    let block := beWords (s.validBytes ++ (beatBytes s.lanes nb.toNat data).take (64 - s.off))
    let left := s.off + nb.toNat - 64
    ∃ (hi lo : Word) (b : Buf) (w : WorkRegs) (t : BitVec 7),
      exec (.update nb data) s =
          .next { s with h := refCompress s.h block, lHi := hi, lLo := lo, buf := b, work := w, t := t } ∧
        (hi ++ lo : BitVec 64) = s.byteCount + nb.zeroExtend 64 ∧
        (∀ k, k < left → b.readByte s.lanes k = laneByte s.lanes data (64 - s.off + k)) ∧
        (∀ k, left ≤ k → k < 4 →
          b.readByte s.lanes k = laneByte s.lanes ((fullSchedule block 64).getD 64 0) k) ∧
        (∀ q, 1 ≤ q → q < 16 → b.word q = (fullSchedule block 64).getD (64 + q) 0)

/-- R72, R103: an empty beat is legal and changes nothing, whatever DATA holds. -/
def Obligations.EmptyUpdateChangesNothing : Prop :=
  ∀ (s : State) (data : Word), s.phase = .active → exec (.update 0 data) s = .next s

/-- The command term `.update nb data` with nb in 5..7 is executed as the command error E_RSVD_NB (code 3) in either
phase, which does nothing else. No word decodes to such a term: that exec gives it the effect that R77 c and R202 give its
word is the model's choice (log entry 13). For the word itself see FirstCauseInPriorityOrderIsReported. -/
def Obligations.ReservedByteCountRaisesAnError : Prop :=
  ∀ (s : State) (nb : BitVec 3) (data : Word), 4 < nb.toNat →
    exec (.update nb data) s = .next { s with err := true, ecause := if s.err then s.ecause else 3 }

/-- R74: the lanes of DATA at or above NB have no effect and raise no error. -/
def Obligations.UnusedLanesHaveNoEffect : Prop :=
  ∀ (s : State) (nb : BitVec 3) (data data' : Word), nb.toNat ≤ 4 → s.phase = .active →
    (∀ k, k < nb.toNat → laneByte s.lanes data k = laneByte s.lanes data' k) →
      ∃ t, exec (.update nb data) s = .next t ∧ exec (.update nb data') s = .next t ∧
        t.err = s.err ∧ t.ecause = s.ecause

/-- R108: every split of a byte stream into beats of 0 to 4 bytes gives the same final state, and the same digest after
FINISH. -/
def Obligations.StreamingInvariant : Prop :=
  ∀ (s : State) (beats beats' : List (List Byte)), s.phase = .active →
    (∀ beat ∈ beats, beat.length ≤ 4) → (∀ beat ∈ beats', beat.length ≤ 4) → beats.flatten = beats'.flatten →
      ∃ t, execAll (beats.map (beatInstr s.lanes)) s = .next t ∧ execAll (beats'.map (beatInstr s.lanes)) s = .next t ∧
        t.phase = .active ∧
        ∃ u, exec .finish t = .next u ∧ execAll (beats.map (beatInstr s.lanes) ++ [.finish]) s = .next u ∧
          execAll (beats'.map (beatInstr s.lanes) ++ [.finish]) s = .next u

/-- R111: KEEP and PADBIT as tabulated, and the pad word: in internal order its valid bytes stay, the byte after them is
0x80 and the rest are 0; the words before it are normalized and the words after it are not touched. -/
def Obligations.PaddingBitFollowsTheLastValidByte : Prop :=
  (keepMask 0 = 0x00000000 ∧ keepMask 1 = 0xFF000000 ∧ keepMask 2 = 0xFFFF0000 ∧ keepMask 3 = 0xFFFFFF00) ∧
  (padBit 0 = 0x80000000 ∧ padBit 1 = 0x00800000 ∧ padBit 2 = 0x00008000 ∧ padBit 3 = 0x00000080) ∧
  ∀ (lanes : LaneOrder) (b : Buf) (i : Nat), i < 64 →
    (∀ k, k < 4 →
      laneByte .be ((b.pad lanes i).word (i / 4)) k =
        if k < i % 4 then b.readByte lanes (4 * (i / 4) + k) else if k = i % 4 then 0x80 else 0) ∧
    (∀ q, q < i / 4 → (b.pad lanes i).word q = normalize lanes (b.word q)) ∧
    (∀ q, i / 4 < q → q < 16 → (b.pad lanes i).word q = b.word q)

/-- R114: the length words are the two halves of L · 8 mod 2^64, written to S[14] and S[15] as numbers. -/
def Obligations.LengthWordsHoldTheBitCount : Prop :=
  ∀ (s : State) (b : Buf),
    (s.bitLenHi ++ s.bitLenLo : BitVec 64) = s.byteCount * 8 ∧
      s.bitLenHi = (s.lHi <<< 3) ||| (s.lLo >>> 29) ∧ s.bitLenLo = s.lLo <<< 3 ∧
      (b.putLength s.bitLenHi s.bitLenLo).word 14 = s.bitLenHi ∧
      (b.putLength s.bitLenHi s.bitLenLo).word 15 = s.bitLenLo ∧
      ∀ q, q < 14 → (b.putLength s.bitLenHi s.bitLenLo).word q = b.word q

/-- R109 to R116 with OFF ≤ 55: FINISH compresses once the block of the valid bytes, the padding bit, zeros and the bit
length; PHASE becomes 1; S holds W_64..W_79; nothing else changes but A..E and T. -/
def Obligations.FinishOfAShortBlockCompressesOnce : Prop :=
  ∀ s : State, s.phase = .active → s.off ≤ 55 →
    let block :=
      beWords (s.validBytes ++ ((0x80 : Byte) :: List.replicate (55 - s.off) 0) ++ be64 (s.byteCount * 8))
    ∃ (b : Buf) (w : WorkRegs) (t : BitVec 7),
      exec .finish s =
          .next { s with h := refCompress s.h block, buf := b, work := w, t := t, phase := .finalized } ∧
        ∀ q, q < 16 → b.word q = (fullSchedule block 64).getD (64 + q) 0

/-- R109 to R116 with OFF ≥ 56: FINISH compresses the block of the valid bytes, the padding bit and zeros, and then a
block of zeros and the bit length; PHASE becomes 1; S holds W_64..W_79 of the second; nothing else changes but A..E
and T. -/
def Obligations.FinishOfALongBlockCompressesTwice : Prop :=
  ∀ s : State, s.phase = .active → 56 ≤ s.off →
    let first := beWords (s.validBytes ++ ((0x80 : Byte) :: List.replicate (63 - s.off) 0))
    let last := beWords (List.replicate 56 (0 : Byte) ++ be64 (s.byteCount * 8))
    ∃ (b : Buf) (w : WorkRegs) (t : BitVec 7),
      exec .finish s =
          .next { s with
            h := refCompress (refCompress s.h first) last, buf := b, work := w, t := t, phase := .finalized } ∧
        ∀ q, q < 16 → b.word q = (fullSchedule last 64).getD (64 + q) 0

/-! ## The Compression Round -/

/-- R152, R153: over the circular window, round t uses word W_t of the full 80-word expansion and T holds t (R26);
Compress gives the H of that expansion, leaves W_64..W_79 in S, and changes nothing else but A..E and T. -/
def Obligations.WindowCompressionIsTheFullExpansion : Prop :=
  ∀ s : State,
    (∀ t, t < 80 →
      let u := State.roundStep^[t] s.load
      u.t.toNat = t ∧ (u.buf.schedule t).word t = (fullSchedule s.buf.toList 64).getD t 0) ∧
    ∃ (b : Buf) (w : WorkRegs) (t : BitVec 7),
      s.compress = { s with h := refCompress s.h s.buf.toList, buf := b, work := w, t := t } ∧
        ∀ q, q < 16 → b.word q = (fullSchedule s.buf.toList 64).getD (64 + q) 0

/-- R155: the optimized forms of ch and maj equal the forms of R142 and R144 for all inputs; each bit of x selects the
bit of y or of z, and each bit of maj is the majority of the three input bits. -/
def Obligations.OptimizedRoundFunctionsAgree : Prop :=
  ∀ x y z : Word,
    z ^^^ (x &&& (y ^^^ z)) = ch x y z ∧ (x &&& y) ||| (z &&& (x ||| y)) = maj x y z ∧
      ∀ i, i < 32 →
        (ch x y z).getLsbD i = (if x.getLsbD i then y.getLsbD i else z.getLsbD i) ∧
          (maj x y z).getLsbD i =
            decide (2 ≤ (x.getLsbD i).toNat + (y.getLsbD i).toNat + (z.getLsbD i).toNat)

/-- R141, R140: `rotl(x, n)` moves bit i to bit (i + n) mod 32, `rotl(x, 0) = x`, and the rule's form holds for n in
1..31; addition is modulo 2^32; with the examples of the two rules. -/
def Obligations.RotationAndAdditionAreModular : Prop :=
  (∀ (x : Word) (n : Nat), n < 32 →
    (∀ i, i < 32 → (rotl x n).getLsbD ((i + n) % 32) = x.getLsbD i) ∧
      (1 ≤ n → rotl x n = (x <<< n) ||| (x >>> (32 - n)))) ∧
  (∀ x : Word, rotl x 0 = x) ∧
  (∀ x y : Word, (x + y).toNat = (x.toNat + y.toNat) % 2 ^ 32) ∧
  rotl 0x80000000 1 = 0x00000001 ∧ rotl 0x67452301 5 = 0xE8A4602C ∧ rotl 0xEFCDAB89 30 = 0x7BF36AE2 ∧
  (0xFFFFFFFF : Word) + 1 = 0x00000000 ∧ (0x80000000 : Word) + 0x80000000 = 0x00000000 ∧
  (0x67452301 : Word) + 0xEFCDAB89 = 0x5712CE8A

/-- From R148, R150 and the stage table of R145 and R146: LOAD copies H0..H4 into A..E and clears T; ROUND at T = t with
the schedule word Wt writes the five words of R150's own formula, with f_t and K_t written out for each of the four
stages, and T <- t + 1; neither writes anything else (but S, by SCHEDULE). The stage functions, the form of TMP and the
rotations 5 and 30 are general knowledge by the spec's own mark (log entry 10). -/
def Obligations.LoadAndRoundFollowTheirFormulas : Prop :=
  ∀ s : State,
    s.load = { s with work := ⟨s.h.h0, s.h.h1, s.h.h2, s.h.h3, s.h.h4⟩, t := 0 } ∧
    (s.t.toNat < 80 →
      let t := s.t.toNat
      let r := s.work
      let wt := (s.buf.schedule t).word t
      let writes (f k : Word) : State :=
        { s with
          buf := s.buf.schedule t
          work :=
            ⟨((r.a <<< 5) ||| (r.a >>> 27)) + f + r.e + k + wt, r.a, (r.b <<< 30) ||| (r.b >>> 2), r.c, r.d⟩
          t := s.t + 1 }
      (t ≤ 19 → s.roundStep = writes ((r.b &&& r.c) ^^^ (~~~r.b &&& r.d)) 0x5A827999) ∧
      (20 ≤ t → t ≤ 39 → s.roundStep = writes (r.b ^^^ r.c ^^^ r.d) 0x6ED9EBA1) ∧
      (40 ≤ t → t ≤ 59 →
        s.roundStep = writes ((r.b &&& r.c) ^^^ (r.b &&& r.d) ^^^ (r.c &&& r.d)) 0x8F1BBCDC) ∧
      (60 ≤ t → t ≤ 79 → s.roundStep = writes (r.b ^^^ r.c ^^^ r.d) 0xCA62C1D6))

/-- From R149: SCHEDULE(t) writes nothing for t < 16; from then on it writes slot t mod 16, with the 1-bit rotation of the
XOR of the slots (t + 13), (t + 8), (t + 2) and t modulo 16, and leaves the other fifteen words as they were. -/
def Obligations.ScheduleWritesOneSlotOfTheWindow : Prop :=
  ∀ (b : Buf) (t : Nat), t < 80 →
    (t < 16 → b.schedule t = b) ∧
    (16 ≤ t →
      (let x := b.word ((t + 13) % 16) ^^^ b.word ((t + 8) % 16) ^^^ b.word ((t + 2) % 16) ^^^ b.word (t % 16)
       (b.schedule t).word (t % 16) = (x <<< 1) ||| (x >>> 31)) ∧
      ∀ q, q < 16 → q ≠ t % 16 → (b.schedule t).word q = b.word q)

/-! ## Byte order -/

/-- R170: bswap reverses the four bytes of a word and is its own inverse; with the rule's examples. -/
def Obligations.SwapReversesTheBytesOfAWord : Prop :=
  (∀ x : Word,
    bswap (bswap x) = x ∧ ∀ k, k < 4 → (bswap x).extractLsb' (8 * k) 8 = x.extractLsb' (24 - 8 * k) 8) ∧
  bswap 0x12345678 = 0x78563412 ∧ bswap 0x00636261 = 0x61626300

/-- R171: Normalize is bswap under LE and nothing under BE, and it moves the stream byte at offset 4j + k to the bits
31−8k : 24−8k, its place in internal order (R53). -/
def Obligations.NormalizedWordsAreInInternalOrder : Prop :=
  (∀ w : Word, normalize .le w = bswap w ∧ normalize .be w = w) ∧
    ∀ (lanes : LaneOrder) (b : Buf) (j k : Nat), j < 16 → k < 4 →
      (normalize lanes (b.word j)).extractLsb' (24 - 8 * k) 8 = b.readByte lanes (4 * j + k)

/-- R52: BufWriteByte writes the byte at its offset and leaves every other byte of the buffer unchanged. -/
def Obligations.BufWriteByteWritesOneByte : Prop :=
  ∀ (lanes : LaneOrder) (b : Buf) (o o' : Nat) (v : Byte), o < 64 → o' < 64 →
    (b.writeByte lanes o v).readByte lanes o' = if o' = o then v else b.readByte lanes o'

/-- R55, R175: digest byte n is the byte of `H[n >> 2]` at bits 8(3 − (n & 3)) + 7 : 8(3 − (n & 3)), whatever LANE_ORDER
is. -/
def Obligations.DigestBytesAreBigEndian : Prop :=
  ∀ (s : State) (n : Nat), n < 20 →
    s.digestByte n = (s.h.word (n / 4)).extractLsb' (8 * (3 - n % 4)) 8 ∧
      s.digest.extractLsb' 152 8 = s.digestByte 0 ∧
      ∀ lanes, ({ s with lanes := lanes } : State).digestByte n = s.digestByte n

/-- R33: the fields of STATUS, and its value after reset. -/
def Obligations.StatusWordFields : Prop :=
  (∀ s : State,
    (s.status.getLsbD 0 = true ↔ s.seq ≠ .idle) ∧ s.status.getLsbD 0 = !s.cmdReady false ∧
      (s.status.getLsbD 1 = true ↔ s.phase = .finalized) ∧ s.status.getLsbD 2 = s.err ∧
      s.status.extractLsb' 3 3 = s.ecause ∧ s.status.extractLsb' 6 2 = 0) ∧
    State.reset.status = 0x00

/-! ## Rules of the whole machine -/

/-- From R20: on a clock edge without reset, H0..H4 change only at an accepted START, to the constants, and at a FOLD, by
adding A..E; they hold the constants after reset. That the FOLD edge is the one at which T is not below 80 (where R26's
range ends at 79) is the model's reading (log entry 6). -/
def Obligations.HashWordsChangeOnlyAtFoldAndStart : Prop :=
  (∀ (s : State) (p : PortIn), p.rst = false → s.seq = .idle → p.cmdValid = true → decode p.cmd = .ok .start →
    (clockEdge p s).h = initialHash) ∧
  (∀ (s : State) (p : PortIn) (job : Job), p.rst = false → s.seq = .busy job .rounds → 80 ≤ s.t.toNat →
    (clockEdge p s).h =
      ⟨s.h.h0 + s.work.a, s.h.h1 + s.work.b, s.h.h2 + s.work.c, s.h.h3 + s.work.d, s.h.h4 + s.work.e⟩) ∧
  (∀ (s : State) (p : PortIn), p.rst = false → (clockEdge p s).h ≠ s.h →
    (s.seq = .idle ∧ p.cmdValid = true ∧ decode p.cmd = .ok .start) ∨
      ∃ job, s.seq = .busy job .rounds ∧ 80 ≤ s.t.toNat) ∧
  State.reset.h = ⟨0x67452301, 0xEFCDAB89, 0x98BADCFE, 0x10325476, 0xC3D2E1F0⟩

/-- R176, R227: from an IDLE state with PHASE = 1, a step that is neither a reset nor an accepted START leaves the digest
port, PHASE, DV = 1 and BUSY = 0 as they are. It is about the port; a faulted run has no digest to claim (R205,
FaultedRunHasNoDigest). -/
def Obligations.DigestIsImmutableUntilStartOrReset : Prop :=
  ∀ s : State, s.phase = .finalized → s.seq = .idle →
    (∀ p ∈ s.host.head?, p.rst = false ∧ (p.cmdValid = true → decode p.cmd ≠ .ok .start)) →
      ∃ t, step s = .next t ∧ t.digest = s.digest ∧ t.phase = .finalized ∧ t.seq = .idle ∧
        t.digestValid = true ∧ t.busy = false

/-- R119, R178: two states with the same context keep the same context through every command, whatever their stale
buffer contents, A..E, T and LANE_ORDER are, when each is given the same stream bytes in its own lanes; so STATUS and
digest stay equal. -/
def Obligations.StaleContentsAndLaneOrderNeverReachTheDigest : Prop :=
  ∀ s t : State, s.SameContext t →
    s.digest = t.digest ∧ s.status = t.status ∧
    (∀ vs : List Byte, vs.length ≤ 4 →
      ∃ s' t', exec (beatInstr s.lanes vs) s = .next s' ∧ exec (beatInstr t.lanes vs) t = .next t' ∧
        s'.SameContext t') ∧
    (∀ i : Instr, i = .nop ∨ i = .start ∨ i = .finish →
      ∃ s' t', exec i s = .next s' ∧ exec i t = .next t' ∧ s'.SameContext t')

/-- R231: the clock level reaches, after the busy cycles and not before, the state that the command level gives, whatever
the host drives meanwhile. That the number of busy cycles is the nominal one of R229's table is the model's choice (log
entry 7). -/
def Obligations.ClockLevelAgreesWithCommandLevel : Prop :=
  ∀ (s : State) (w : CmdWord) (ps : List PortIn), s.seq = .idle → s.pend = [] →
    (∀ p ∈ ps, p.rst = false) → ps.length = s.wordBusyCycles w →
      accept w s = .next (clockRun (present w :: ps) s) ∧ (clockRun (present w :: ps) s).seq = .idle ∧
        ∀ k, k < ps.length → (clockRun (present w :: ps.take k) s).busy = true

/-- R226: while the core is BUSY, from the accepting edge on, PHASE, DV, ERR and ECAUSE keep their values from before
the command. R104 and R229's table: L changes at the accepting edge of an UPDATE alone, by its byte count, and at no edge
that leads from BUSY to BUSY. -/
def Obligations.StatusKeepsItsFieldsWhileBusy : Prop :=
  (∀ (s : State) (p : PortIn), p.rst = false → (clockEdge p s).busy = true →
    (clockEdge p s).phase = s.phase ∧ (clockEdge p s).digestValid = s.digestValid ∧
      (clockEdge p s).err = s.err ∧ (clockEdge p s).ecause = s.ecause) ∧
  (∀ (s : State) (p : PortIn), p.rst = false → s.busy = true → (clockEdge p s).busy = true →
    (clockEdge p s).byteCount = s.byteCount ∧ (clockEdge p s).status = s.status) ∧
  ∀ (s : State) (p : PortIn), p.rst = false → s.busy = false → (clockEdge p s).busy = true →
    (∃ nb data, decode p.cmd = .ok (.update nb data) ∧
      (clockEdge p s).byteCount = s.byteCount + nb.zeroExtend 64) ∨
    (decode p.cmd = .ok .finish ∧ (clockEdge p s).byteCount = s.byteCount)

/-- The invariant of the state elements (R30, R31, R32, R201) is kept by every step. That T is at most 80, and not 79 as
R26's range has it, is the model's reading (log entry 6). -/
def Obligations.StepKeepsTheInvariant : Prop :=
  ∀ s t : State, s.Inv → step s = .next t → t.Inv

/-- The same invariant is kept by every clock edge, with every input. That T is at most 80 is the model's reading (log
entry 6). -/
def Obligations.ClockEdgeKeepsTheInvariant : Prop :=
  ∀ (s : State) (p : PortIn), s.Inv → (clockEdge p s).Inv

/-- The invariant (with the model's bound of T, log entry 6) holds right after reset, and after every reset edge. -/
def Obligations.ResetMeetsTheInvariant : Prop :=
  State.reset.Inv ∧ ∀ s : State, s.resetEdge.Inv

/-! ## The hash of a stream -/

/-- R109, R83, R108: from any IDLE state without ERR, in any phase and with any stale contents, START, the beats of a byte
stream in any split, and FINISH, presented word by word, are a run that is not faulted, and the digest that may be claimed
of it (R205, R227) is the hash of the stream. Without a premise on ERR, these commands leave the words of that hash in
H0..H4 and PHASE = 1, in IDLE, and leave the rest of what the host will present: with ERR = 1 this says what the commands
compute (R204) and claims no digest (R205, log entry 5). The hash takes the bit length modulo 2^64; that it is SHA-1 for
fewer than 2^61 bytes is not claimed here (log entry 14). -/
def Obligations.ProgramDigestIsTheStreamHash : Prop :=
  ∀ (s : State) (beats : List (List Byte)) (rest : List PortIn), s.seq = .idle →
    (∀ beat ∈ beats, beat.length ≤ 4) →
      let start : State :=
        { s with host := ((beatsProgram s.lanes beats).map fun i => present (encode i)) ++ rest }
      (s.faulted = false →
        faultedRun (beats.length + 2) start = false ∧
          digestOfRun (beats.length + 2) start = some (streamHash beats.flatten).digest) ∧
      ∃ t : State, Host.Core.run Sys2Proof.core (beats.length + 2) start = .next t ∧
        t.h = streamHash beats.flatten ∧ t.phase = .finalized ∧ t.seq = .idle ∧
        t.byteCount = BitVec.ofNat 64 beats.flatten.length ∧ t.err = s.err ∧ t.ecause = s.ecause ∧
        t.lanes = s.lanes ∧ t.host = rest

/-- R205: a run is faulted exactly when ERR is 1 in one of its states; the fault is never cleared within the run, not by a
reset either; and no digest may be claimed of it, however far it goes. The same of the edges of the clock level. -/
def Obligations.FaultedRunHasNoDigest : Prop :=
  (∀ (n : Nat) (s : State),
    (faultedRun n s = true ↔
      ∃ (k : Nat) (t : State), k ≤ n ∧ Host.Core.run Sys2Proof.core k s = .next t ∧ t.err = true) ∧
    (faultedRun n s = true → ∀ m, faultedRun (n + m) s = true ∧ digestOfRun (n + m) s = none)) ∧
  ∀ (ps : List PortIn) (s : State),
    (faultedEdges ps s = true ↔ ∃ k, k ≤ ps.length ∧ (clockRun (ps.take k) s).err = true) ∧
    (faultedEdges ps s = true →
      ∀ qs, faultedEdges (ps ++ qs) s = true ∧ digestOfEdges (ps ++ qs) s = none)

/-- V1, V2 (the source's two digests): the hash of a stream, as the statements above define it, is SHA-1 on "" and on
"abc". A check of the definition that they compare the core with. -/
def Obligations.StreamHashGivesTheSourceVectors : Prop :=
  (streamHash []).digest = 0xda39a3ee5e6b4b0d3255bfef95601890afd80709 ∧
    (streamHash [0x61, 0x62, 0x63]).digest = 0xa9993e364706816aba3e25717850c26c9cd0d89d
end

