-- ==== Sys2Proof/Laws/State.lean ====
section
/-! SUPPORT. What each named update of the state does to each field, so that no later proof unfolds a record update.
Each is true by rfl. The proof stands in parentheses so that simp rewrites with the lemma and records the rewriting:
the kernel then never has to compare two whole states, whose buffers it would evaluate. -/

namespace Sys2Proof.Machine

variable (s : State)

/-! ## `State.setBuf` -/

@[simp] theorem setBuf_h (b : Buf) : (s.setBuf b).h = s.h := (rfl)
@[simp] theorem setBuf_lHi (b : Buf) : (s.setBuf b).lHi = s.lHi := (rfl)
@[simp] theorem setBuf_lLo (b : Buf) : (s.setBuf b).lLo = s.lLo := (rfl)
@[simp] theorem setBuf_buf (b : Buf) : (s.setBuf b).buf = b := (rfl)
@[simp] theorem setBuf_work (b : Buf) : (s.setBuf b).work = s.work := (rfl)
@[simp] theorem setBuf_t (b : Buf) : (s.setBuf b).t = s.t := (rfl)
@[simp] theorem setBuf_pend (b : Buf) : (s.setBuf b).pend = s.pend := (rfl)
@[simp] theorem setBuf_phase (b : Buf) : (s.setBuf b).phase = s.phase := (rfl)
@[simp] theorem setBuf_err (b : Buf) : (s.setBuf b).err = s.err := (rfl)
@[simp] theorem setBuf_ecause (b : Buf) : (s.setBuf b).ecause = s.ecause := (rfl)
@[simp] theorem setBuf_seq (b : Buf) : (s.setBuf b).seq = s.seq := (rfl)
@[simp] theorem setBuf_lanes (b : Buf) : (s.setBuf b).lanes = s.lanes := (rfl)
@[simp] theorem setBuf_draws (b : Buf) : (s.setBuf b).draws = s.draws := (rfl)
@[simp] theorem setBuf_host (b : Buf) : (s.setBuf b).host = s.host := (rfl)

/-! ## `State.setHost` -/

@[simp] theorem setHost_h (ps : List PortIn) : (s.setHost ps).h = s.h := (rfl)
@[simp] theorem setHost_lHi (ps : List PortIn) : (s.setHost ps).lHi = s.lHi := (rfl)
@[simp] theorem setHost_lLo (ps : List PortIn) : (s.setHost ps).lLo = s.lLo := (rfl)
@[simp] theorem setHost_buf (ps : List PortIn) : (s.setHost ps).buf = s.buf := (rfl)
@[simp] theorem setHost_work (ps : List PortIn) : (s.setHost ps).work = s.work := (rfl)
@[simp] theorem setHost_t (ps : List PortIn) : (s.setHost ps).t = s.t := (rfl)
@[simp] theorem setHost_pend (ps : List PortIn) : (s.setHost ps).pend = s.pend := (rfl)
@[simp] theorem setHost_phase (ps : List PortIn) : (s.setHost ps).phase = s.phase := (rfl)
@[simp] theorem setHost_err (ps : List PortIn) : (s.setHost ps).err = s.err := (rfl)
@[simp] theorem setHost_ecause (ps : List PortIn) : (s.setHost ps).ecause = s.ecause := (rfl)
@[simp] theorem setHost_seq (ps : List PortIn) : (s.setHost ps).seq = s.seq := (rfl)
@[simp] theorem setHost_lanes (ps : List PortIn) : (s.setHost ps).lanes = s.lanes := (rfl)
@[simp] theorem setHost_draws (ps : List PortIn) : (s.setHost ps).draws = s.draws := (rfl)
@[simp] theorem setHost_host (ps : List PortIn) : (s.setHost ps).host = ps := (rfl)

/-! ## `State.setSeq` -/

@[simp] theorem setSeq_h (q : Seq) : (s.setSeq q).h = s.h := (rfl)
@[simp] theorem setSeq_lHi (q : Seq) : (s.setSeq q).lHi = s.lHi := (rfl)
@[simp] theorem setSeq_lLo (q : Seq) : (s.setSeq q).lLo = s.lLo := (rfl)
@[simp] theorem setSeq_buf (q : Seq) : (s.setSeq q).buf = s.buf := (rfl)
@[simp] theorem setSeq_work (q : Seq) : (s.setSeq q).work = s.work := (rfl)
@[simp] theorem setSeq_t (q : Seq) : (s.setSeq q).t = s.t := (rfl)
@[simp] theorem setSeq_pend (q : Seq) : (s.setSeq q).pend = s.pend := (rfl)
@[simp] theorem setSeq_phase (q : Seq) : (s.setSeq q).phase = s.phase := (rfl)
@[simp] theorem setSeq_err (q : Seq) : (s.setSeq q).err = s.err := (rfl)
@[simp] theorem setSeq_ecause (q : Seq) : (s.setSeq q).ecause = s.ecause := (rfl)
@[simp] theorem setSeq_seq (q : Seq) : (s.setSeq q).seq = q := (rfl)
@[simp] theorem setSeq_lanes (q : Seq) : (s.setSeq q).lanes = s.lanes := (rfl)
@[simp] theorem setSeq_draws (q : Seq) : (s.setSeq q).draws = s.draws := (rfl)
@[simp] theorem setSeq_host (q : Seq) : (s.setSeq q).host = s.host := (rfl)

/-! ## `State.setPend` -/

@[simp] theorem setPend_h (vs : List Byte) : (s.setPend vs).h = s.h := (rfl)
@[simp] theorem setPend_lHi (vs : List Byte) : (s.setPend vs).lHi = s.lHi := (rfl)
@[simp] theorem setPend_lLo (vs : List Byte) : (s.setPend vs).lLo = s.lLo := (rfl)
@[simp] theorem setPend_buf (vs : List Byte) : (s.setPend vs).buf = s.buf := (rfl)
@[simp] theorem setPend_work (vs : List Byte) : (s.setPend vs).work = s.work := (rfl)
@[simp] theorem setPend_t (vs : List Byte) : (s.setPend vs).t = s.t := (rfl)
@[simp] theorem setPend_pend (vs : List Byte) : (s.setPend vs).pend = vs := (rfl)
@[simp] theorem setPend_phase (vs : List Byte) : (s.setPend vs).phase = s.phase := (rfl)
@[simp] theorem setPend_err (vs : List Byte) : (s.setPend vs).err = s.err := (rfl)
@[simp] theorem setPend_ecause (vs : List Byte) : (s.setPend vs).ecause = s.ecause := (rfl)
@[simp] theorem setPend_seq (vs : List Byte) : (s.setPend vs).seq = s.seq := (rfl)
@[simp] theorem setPend_lanes (vs : List Byte) : (s.setPend vs).lanes = s.lanes := (rfl)
@[simp] theorem setPend_draws (vs : List Byte) : (s.setPend vs).draws = s.draws := (rfl)
@[simp] theorem setPend_host (vs : List Byte) : (s.setPend vs).host = s.host := (rfl)

/-! ## `State.finalize` -/

@[simp] theorem finalize_h : s.finalize.h = s.h := (rfl)
@[simp] theorem finalize_lHi : s.finalize.lHi = s.lHi := (rfl)
@[simp] theorem finalize_lLo : s.finalize.lLo = s.lLo := (rfl)
@[simp] theorem finalize_buf : s.finalize.buf = s.buf := (rfl)
@[simp] theorem finalize_work : s.finalize.work = s.work := (rfl)
@[simp] theorem finalize_t : s.finalize.t = s.t := (rfl)
@[simp] theorem finalize_pend : s.finalize.pend = s.pend := (rfl)
@[simp] theorem finalize_phase : s.finalize.phase = .finalized := (rfl)
@[simp] theorem finalize_err : s.finalize.err = s.err := (rfl)
@[simp] theorem finalize_ecause : s.finalize.ecause = s.ecause := (rfl)
@[simp] theorem finalize_seq : s.finalize.seq = s.seq := (rfl)
@[simp] theorem finalize_lanes : s.finalize.lanes = s.lanes := (rfl)
@[simp] theorem finalize_draws : s.finalize.draws = s.draws := (rfl)
@[simp] theorem finalize_host : s.finalize.host = s.host := (rfl)

/-! ## `State.load` -/

@[simp] theorem load_h : s.load.h = s.h := (rfl)
@[simp] theorem load_lHi : s.load.lHi = s.lHi := (rfl)
@[simp] theorem load_lLo : s.load.lLo = s.lLo := (rfl)
@[simp] theorem load_buf : s.load.buf = s.buf := (rfl)
@[simp] theorem load_work : s.load.work = ⟨s.h.h0, s.h.h1, s.h.h2, s.h.h3, s.h.h4⟩ := (rfl)
@[simp] theorem load_t : s.load.t = 0 := (rfl)
@[simp] theorem load_pend : s.load.pend = s.pend := (rfl)
@[simp] theorem load_phase : s.load.phase = s.phase := (rfl)
@[simp] theorem load_err : s.load.err = s.err := (rfl)
@[simp] theorem load_ecause : s.load.ecause = s.ecause := (rfl)
@[simp] theorem load_seq : s.load.seq = s.seq := (rfl)
@[simp] theorem load_lanes : s.load.lanes = s.lanes := (rfl)
@[simp] theorem load_draws : s.load.draws = s.draws := (rfl)
@[simp] theorem load_host : s.load.host = s.host := (rfl)

/-! ## `State.roundStep` -/

@[simp] theorem roundStep_h : s.roundStep.h = s.h := (rfl)
@[simp] theorem roundStep_lHi : s.roundStep.lHi = s.lHi := (rfl)
@[simp] theorem roundStep_lLo : s.roundStep.lLo = s.lLo := (rfl)
@[simp] theorem roundStep_t : s.roundStep.t = s.t + 1 := (rfl)
@[simp] theorem roundStep_pend : s.roundStep.pend = s.pend := (rfl)
@[simp] theorem roundStep_phase : s.roundStep.phase = s.phase := (rfl)
@[simp] theorem roundStep_err : s.roundStep.err = s.err := (rfl)
@[simp] theorem roundStep_ecause : s.roundStep.ecause = s.ecause := (rfl)
@[simp] theorem roundStep_seq : s.roundStep.seq = s.seq := (rfl)
@[simp] theorem roundStep_lanes : s.roundStep.lanes = s.lanes := (rfl)
@[simp] theorem roundStep_draws : s.roundStep.draws = s.draws := (rfl)
@[simp] theorem roundStep_host : s.roundStep.host = s.host := (rfl)

/-! ## `State.fold` -/

@[simp] theorem fold_h : s.fold.h = s.h.addWork s.work := (rfl)
@[simp] theorem fold_lHi : s.fold.lHi = s.lHi := (rfl)
@[simp] theorem fold_lLo : s.fold.lLo = s.lLo := (rfl)
@[simp] theorem fold_buf : s.fold.buf = s.buf := (rfl)
@[simp] theorem fold_work : s.fold.work = s.work := (rfl)
@[simp] theorem fold_t : s.fold.t = s.t := (rfl)
@[simp] theorem fold_pend : s.fold.pend = s.pend := (rfl)
@[simp] theorem fold_phase : s.fold.phase = s.phase := (rfl)
@[simp] theorem fold_err : s.fold.err = s.err := (rfl)
@[simp] theorem fold_ecause : s.fold.ecause = s.ecause := (rfl)
@[simp] theorem fold_seq : s.fold.seq = s.seq := (rfl)
@[simp] theorem fold_lanes : s.fold.lanes = s.lanes := (rfl)
@[simp] theorem fold_draws : s.fold.draws = s.draws := (rfl)
@[simp] theorem fold_host : s.fold.host = s.host := (rfl)

/-! ## `State.prepOneBlock` -/

@[simp] theorem prepOneBlock_h : s.prepOneBlock.h = s.h := setBuf_h _ _
@[simp] theorem prepOneBlock_lHi : s.prepOneBlock.lHi = s.lHi := setBuf_lHi _ _
@[simp] theorem prepOneBlock_lLo : s.prepOneBlock.lLo = s.lLo := setBuf_lLo _ _
@[simp] theorem prepOneBlock_work : s.prepOneBlock.work = s.work := setBuf_work _ _
@[simp] theorem prepOneBlock_t : s.prepOneBlock.t = s.t := setBuf_t _ _
@[simp] theorem prepOneBlock_pend : s.prepOneBlock.pend = s.pend := setBuf_pend _ _
@[simp] theorem prepOneBlock_phase : s.prepOneBlock.phase = s.phase := setBuf_phase _ _
@[simp] theorem prepOneBlock_err : s.prepOneBlock.err = s.err := setBuf_err _ _
@[simp] theorem prepOneBlock_ecause : s.prepOneBlock.ecause = s.ecause := setBuf_ecause _ _
@[simp] theorem prepOneBlock_seq : s.prepOneBlock.seq = s.seq := setBuf_seq _ _
@[simp] theorem prepOneBlock_lanes : s.prepOneBlock.lanes = s.lanes := setBuf_lanes _ _
@[simp] theorem prepOneBlock_draws : s.prepOneBlock.draws = s.draws := setBuf_draws _ _
@[simp] theorem prepOneBlock_host : s.prepOneBlock.host = s.host := setBuf_host _ _

/-! ## `State.prepFirstBlock` -/

@[simp] theorem prepFirstBlock_h : s.prepFirstBlock.h = s.h := setBuf_h _ _
@[simp] theorem prepFirstBlock_lHi : s.prepFirstBlock.lHi = s.lHi := setBuf_lHi _ _
@[simp] theorem prepFirstBlock_lLo : s.prepFirstBlock.lLo = s.lLo := setBuf_lLo _ _
@[simp] theorem prepFirstBlock_work : s.prepFirstBlock.work = s.work := setBuf_work _ _
@[simp] theorem prepFirstBlock_t : s.prepFirstBlock.t = s.t := setBuf_t _ _
@[simp] theorem prepFirstBlock_pend : s.prepFirstBlock.pend = s.pend := setBuf_pend _ _
@[simp] theorem prepFirstBlock_phase : s.prepFirstBlock.phase = s.phase := setBuf_phase _ _
@[simp] theorem prepFirstBlock_err : s.prepFirstBlock.err = s.err := setBuf_err _ _
@[simp] theorem prepFirstBlock_ecause : s.prepFirstBlock.ecause = s.ecause := setBuf_ecause _ _
@[simp] theorem prepFirstBlock_seq : s.prepFirstBlock.seq = s.seq := setBuf_seq _ _
@[simp] theorem prepFirstBlock_lanes : s.prepFirstBlock.lanes = s.lanes := setBuf_lanes _ _
@[simp] theorem prepFirstBlock_draws : s.prepFirstBlock.draws = s.draws := setBuf_draws _ _
@[simp] theorem prepFirstBlock_host : s.prepFirstBlock.host = s.host := setBuf_host _ _

/-! ## `State.prepLastBlock` -/

@[simp] theorem prepLastBlock_h : s.prepLastBlock.h = s.h := setBuf_h _ _
@[simp] theorem prepLastBlock_lHi : s.prepLastBlock.lHi = s.lHi := setBuf_lHi _ _
@[simp] theorem prepLastBlock_lLo : s.prepLastBlock.lLo = s.lLo := setBuf_lLo _ _
@[simp] theorem prepLastBlock_work : s.prepLastBlock.work = s.work := setBuf_work _ _
@[simp] theorem prepLastBlock_t : s.prepLastBlock.t = s.t := setBuf_t _ _
@[simp] theorem prepLastBlock_pend : s.prepLastBlock.pend = s.pend := setBuf_pend _ _
@[simp] theorem prepLastBlock_phase : s.prepLastBlock.phase = s.phase := setBuf_phase _ _
@[simp] theorem prepLastBlock_err : s.prepLastBlock.err = s.err := setBuf_err _ _
@[simp] theorem prepLastBlock_ecause : s.prepLastBlock.ecause = s.ecause := setBuf_ecause _ _
@[simp] theorem prepLastBlock_seq : s.prepLastBlock.seq = s.seq := setBuf_seq _ _
@[simp] theorem prepLastBlock_lanes : s.prepLastBlock.lanes = s.lanes := setBuf_lanes _ _
@[simp] theorem prepLastBlock_draws : s.prepLastBlock.draws = s.draws := setBuf_draws _ _
@[simp] theorem prepLastBlock_host : s.prepLastBlock.host = s.host := setBuf_host _ _

/-! ## `State.counterAdd` -/

@[simp] theorem counterAdd_h (n : Nat) : (s.counterAdd n).h = s.h := (rfl)
@[simp] theorem counterAdd_buf (n : Nat) : (s.counterAdd n).buf = s.buf := (rfl)
@[simp] theorem counterAdd_work (n : Nat) : (s.counterAdd n).work = s.work := (rfl)
@[simp] theorem counterAdd_t (n : Nat) : (s.counterAdd n).t = s.t := (rfl)
@[simp] theorem counterAdd_pend (n : Nat) : (s.counterAdd n).pend = s.pend := (rfl)
@[simp] theorem counterAdd_phase (n : Nat) : (s.counterAdd n).phase = s.phase := (rfl)
@[simp] theorem counterAdd_err (n : Nat) : (s.counterAdd n).err = s.err := (rfl)
@[simp] theorem counterAdd_ecause (n : Nat) : (s.counterAdd n).ecause = s.ecause := (rfl)
@[simp] theorem counterAdd_seq (n : Nat) : (s.counterAdd n).seq = s.seq := (rfl)
@[simp] theorem counterAdd_lanes (n : Nat) : (s.counterAdd n).lanes = s.lanes := (rfl)
@[simp] theorem counterAdd_draws (n : Nat) : (s.counterAdd n).draws = s.draws := (rfl)
@[simp] theorem counterAdd_host (n : Nat) : (s.counterAdd n).host = s.host := (rfl)

/-! ## `State.startContext` -/

@[simp] theorem startContext_h : s.startContext.h = initialHash := (rfl)
@[simp] theorem startContext_lHi : s.startContext.lHi = 0 := (rfl)
@[simp] theorem startContext_lLo : s.startContext.lLo = 0 := (rfl)
@[simp] theorem startContext_buf : s.startContext.buf = s.buf := (rfl)
@[simp] theorem startContext_work : s.startContext.work = s.work := (rfl)
@[simp] theorem startContext_t : s.startContext.t = s.t := (rfl)
@[simp] theorem startContext_pend : s.startContext.pend = s.pend := (rfl)
@[simp] theorem startContext_phase : s.startContext.phase = .active := (rfl)
@[simp] theorem startContext_err : s.startContext.err = s.err := (rfl)
@[simp] theorem startContext_ecause : s.startContext.ecause = s.ecause := (rfl)
@[simp] theorem startContext_seq : s.startContext.seq = s.seq := (rfl)
@[simp] theorem startContext_lanes : s.startContext.lanes = s.lanes := (rfl)
@[simp] theorem startContext_draws : s.startContext.draws = s.draws := (rfl)
@[simp] theorem startContext_host : s.startContext.host = s.host := (rfl)

/-! ## `State.raiseCmdError` -/

@[simp] theorem raiseCmdError_h (c : CmdCause) : (s.raiseCmdError c).h = s.h := (rfl)
@[simp] theorem raiseCmdError_lHi (c : CmdCause) : (s.raiseCmdError c).lHi = s.lHi := (rfl)
@[simp] theorem raiseCmdError_lLo (c : CmdCause) : (s.raiseCmdError c).lLo = s.lLo := (rfl)
@[simp] theorem raiseCmdError_buf (c : CmdCause) : (s.raiseCmdError c).buf = s.buf := (rfl)
@[simp] theorem raiseCmdError_work (c : CmdCause) : (s.raiseCmdError c).work = s.work := (rfl)
@[simp] theorem raiseCmdError_t (c : CmdCause) : (s.raiseCmdError c).t = s.t := (rfl)
@[simp] theorem raiseCmdError_pend (c : CmdCause) : (s.raiseCmdError c).pend = s.pend := (rfl)
@[simp] theorem raiseCmdError_phase (c : CmdCause) : (s.raiseCmdError c).phase = s.phase := (rfl)
@[simp] theorem raiseCmdError_err (c : CmdCause) : (s.raiseCmdError c).err = true := (rfl)
@[simp] theorem raiseCmdError_ecause (c : CmdCause) : (s.raiseCmdError c).ecause = if s.err then s.ecause else c.code := (rfl)
@[simp] theorem raiseCmdError_seq (c : CmdCause) : (s.raiseCmdError c).seq = s.seq := (rfl)
@[simp] theorem raiseCmdError_lanes (c : CmdCause) : (s.raiseCmdError c).lanes = s.lanes := (rfl)
@[simp] theorem raiseCmdError_draws (c : CmdCause) : (s.raiseCmdError c).draws = s.draws := (rfl)
@[simp] theorem raiseCmdError_host (c : CmdCause) : (s.raiseCmdError c).host = s.host := (rfl)

end Sys2Proof.Machine
end

