-- ==== Sys2Proof/Laws/Buffer.lean ====
section
/-! SUPPORT. What the operations on the staging buffer do, word by word and byte by byte (R51, R52, R171). -/

namespace Sys2Proof.Machine

/-! ## Words -/

theorem word_setWord (b : Buf) (j k : Nat) (v : Word) :
    (b.setWord j v).word k = if k % 16 = j % 16 then v else b.word k := by
  simp only [Buf.word, Buf.setWord, Vector.getElem_set, eq_comm]

theorem word_mapRange (b : Buf) (first last q : Nat) (f : Word → Word) (hq : q < 16) :
    (b.mapRange first last f).word q = if first ≤ q ∧ q < last then f (b.word q) else b.word q := by
  simp [Buf.word, Buf.mapRange, Nat.mod_eq_of_lt hq]

theorem word_zeroRange (b : Buf) (first last q : Nat) (hq : q < 16) :
    (b.zeroRange first last).word q = if first ≤ q ∧ q < last then 0 else b.word q :=
  word_mapRange b first last q _ hq

theorem word_normalizeBelow (lanes : LaneOrder) (b : Buf) (n q : Nat) (hq : q < 16) :
    (b.normalizeBelow lanes n).word q = if q < n then normalize lanes (b.word q) else b.word q := by
  rw [Buf.normalizeBelow, word_mapRange b 0 n q _ hq]
  simp

theorem word_mod (b : Buf) (j : Nat) : b.word (j % 16) = b.word j := by
  simp [Buf.word]

theorem toList_getD (b : Buf) (q : Nat) (hq : q < 16) : b.toList.getD q 0 = b.word q := by
  simp [Buf.word, Nat.mod_eq_of_lt hq, hq]

/-- Two buffers with the same sixteen words are the same buffer. -/
theorem buf_ext {b c : Buf} (h : ∀ q, q < 16 → b.word q = c.word q) : b = c := by
  refine Vector.ext fun q hq => ?_
  simpa [Buf.word, Nat.mod_eq_of_lt hq] using h q hq

/-! ## Lanes -/

theorem lanepos_le (k : Nat) : lanepos .le k = 8 * k := rfl
theorem lanepos_be (k : Nat) : lanepos .be k = 8 * (3 - k) := rfl

/-- Writing one lane of a word and reading a lane of the result (R52). -/
theorem laneByte_writeLane (lanes : LaneOrder) (w : Word) (v : Byte) (k k' : Nat) (hk : k < 4) (hk' : k' < 4) :
    laneByte lanes ((w &&& ~~~((0xFF : Word) <<< lanepos lanes k)) ||| (v.zeroExtend 32 <<< lanepos lanes k)) k' =
      if k' = k then v else laneByte lanes w k' := by
  apply BitVec.eq_of_getLsbD_eq
  intro i hi
  cases lanes <;> interval_cases k <;> interval_cases k' <;>
    simp [laneByte, lanepos, hi] <;> interval_cases i <;> simp

theorem laneByte_bswap (x : Word) (k : Nat) (hk : k < 4) : laneByte .be (bswap x) k = laneByte .le x k := by
  apply BitVec.eq_of_getLsbD_eq
  intro i hi
  simp only [laneByte, lanepos, bswap, BitVec.getLsbD_extractLsb', BitVec.getLsbD_append]
  interval_cases k <;> interval_cases i <;> simp

/-- A word is its four lanes, first lane in bits 31:24 under BE. -/
theorem word_eq_of_lanes {x y : Word} (h : ∀ k, k < 4 → laneByte .be x k = laneByte .be y k) : x = y := by
  apply BitVec.eq_of_getLsbD_eq
  intro i hi
  have := congrArg (fun b : Byte => b.getLsbD (i % 8)) (h (3 - i / 8) (by omega))
  simp only [laneByte, lanepos, BitVec.getLsbD_extractLsb', Nat.mod_lt i (show 8 > 0 by decide), decide_true,
    Bool.true_and] at this
  rwa [show 8 * (3 - (3 - i / 8)) + i % 8 = i by omega] at this

/-- R171: the byte of lane k moves to lane k of the internal order. -/
theorem laneByte_normalize (lanes : LaneOrder) (x : Word) (k : Nat) (hk : k < 4) :
    laneByte .be (normalize lanes x) k = laneByte lanes x k := by
  cases lanes with
  | le => exact laneByte_bswap x k hk
  | be => rfl

/-! ## Bytes -/

theorem readByte_writeByte (lanes : LaneOrder) (b : Buf) (o o' : Nat) (v : Byte) (ho : o < 64) (ho' : o' < 64) :
    (b.writeByte lanes o v).readByte lanes o' = if o' = o then v else b.readByte lanes o' := by
  simp only [Buf.readByte, Buf.writeByte, word_setWord]
  by_cases hw : o' / 4 = o / 4
  · rw [if_pos (by omega), laneByte_writeLane _ _ _ _ _ (by omega) (by omega), hw]
    by_cases h : o' = o
    · rw [if_pos (by omega), if_pos h]
    · rw [if_neg (by omega), if_neg h]
  · rw [if_neg (by omega), if_neg (by omega)]

theorem readByte_writeBytes (lanes : LaneOrder) (vs : List Byte) :
    ∀ (b : Buf) (o o' : Nat), o + vs.length ≤ 64 → o' < 64 →
      (b.writeBytes lanes o vs).readByte lanes o' =
        if o ≤ o' ∧ o' < o + vs.length then vs.getD (o' - o) 0 else b.readByte lanes o' := by
  induction vs with
  | nil =>
    intro b o o' _ _
    rw [if_neg (by simp only [List.length_nil]; omega)]
    rfl
  | cons v vs ih =>
    intro b o o' ho ho'
    simp only [List.length_cons] at ho
    rw [Buf.writeBytes, ih _ _ _ (by omega) ho', readByte_writeByte _ _ _ _ _ (by omega) ho']
    simp only [List.length_cons]
    by_cases h : o' = o
    · subst h
      simp
    · by_cases h1 : o + 1 ≤ o' ∧ o' < o + 1 + vs.length
      · rw [if_pos h1, if_pos (by omega), show o' - o = o' - (o + 1) + 1 by omega]
        simp
      · rw [if_neg h1, if_neg h, if_neg (by omega)]

/-- A buffer is its sixty-four bytes. -/
theorem buf_ext_bytes (lanes : LaneOrder) {b c : Buf} (h : ∀ o, o < 64 → b.readByte lanes o = c.readByte lanes o) :
    b = c := by
  have hinj : ∀ {x y : Word}, normalize lanes x = normalize lanes y → x = y := by
    intro x y hxy
    cases lanes with
    | be => exact hxy
    | le =>
      apply word_eq_of_lanes
      intro k hk
      have := congrArg (fun w => laneByte .be w (3 - k)) hxy
      simp only [normalize] at this
      rw [laneByte_bswap _ _ (by omega), laneByte_bswap _ _ (by omega)] at this
      simpa [laneByte, lanepos, show 3 - (3 - k) = k by omega] using this
  refine buf_ext fun q hq => hinj (word_eq_of_lanes fun k hk => ?_)
  rw [laneByte_normalize _ _ _ hk, laneByte_normalize _ _ _ hk]
  have := h (4 * q + k) (by omega)
  simpa only [Buf.readByte, show (4 * q + k) / 4 = q by omega, show (4 * q + k) % 4 = k by omega] using this

end Sys2Proof.Machine
end

