-- ==== Sys2Proof/Laws/Beats.lean ====
section
/-! SUPPORT. The UPDATE command that carries given bytes: what its lanes hold (R73, R82), and the beats of FEED (R83). -/

namespace Sys2Proof.Machine

theorem laneByte_packBytes (lanes : LaneOrder) (vs : List Byte) (h : vs.length ≤ 4) (k : Nat) (hk : k < 4) :
    laneByte lanes (packBytes lanes 0 vs) k = vs.getD k 0 := by
  apply BitVec.eq_of_getLsbD_eq
  intro i hi
  match vs, h with
  | [], _ => cases lanes <;> interval_cases k <;> simp [packBytes, laneByte]
  | [a], _ => cases lanes <;> interval_cases k <;> simp [packBytes, laneByte, lanepos, hi] <;> interval_cases i <;> simp
  | [a, b], _ =>
    cases lanes <;> interval_cases k <;> simp [packBytes, laneByte, lanepos, hi] <;> interval_cases i <;> simp
  | [a, b, c], _ =>
    cases lanes <;> interval_cases k <;> simp [packBytes, laneByte, lanepos, hi] <;> interval_cases i <;> simp
  | [a, b, c, d], _ =>
    cases lanes <;> interval_cases k <;> simp [packBytes, laneByte, lanepos, hi] <;> interval_cases i <;> simp
  | _ :: _ :: _ :: _ :: _ :: r, h => exact absurd h (by simp)

theorem toNat_beatCount (vs : List Byte) (h : vs.length ≤ 4) : (BitVec.ofNat 3 vs.length).toNat = vs.length := by
  rw [BitVec.toNat_ofNat]
  omega

theorem length_beatBytes (lanes : LaneOrder) (n : Nat) (data : Word) : (beatBytes lanes n data).length = n := by
  simp [beatBytes]

theorem getD_beatBytes (lanes : LaneOrder) (n : Nat) (data : Word) (k : Nat) (hk : k < n) :
    (beatBytes lanes n data).getD k 0 = laneByte lanes data k := by
  simp [beatBytes, hk]

/-- The bytes of the beat built for `vs` are `vs`. -/
theorem beatBytes_packBytes (lanes : LaneOrder) (vs : List Byte) (h : vs.length ≤ 4) :
    beatBytes lanes vs.length (packBytes lanes 0 vs) = vs := by
  refine List.ext_getElem (by simp [beatBytes]) fun i h1 h2 => ?_
  simp only [beatBytes, List.getElem_map, List.getElem_range]
  rw [laneByte_packBytes lanes vs h i (by omega)]
  simp [h2]

end Sys2Proof.Machine
end

