-- ==== Sys2Proof/Laws/Compress.lean ====
section
/-! SUPPORT. What the Compression Round does: the circular window against the full expansion (R149, R152, R153), and
what Compress leaves unchanged (R147). -/

namespace Sys2Proof.Machine

/-! ## The full expansion -/

theorem length_fullSchedule (block : List Word) (n : Nat) : (fullSchedule block n).length = block.length + n := by
  induction n with
  | zero => rfl
  | succ n ih => simp [fullSchedule, ih]; omega

/-- Words already in the expansion stay where they are. -/
theorem fullSchedule_stable (block : List Word) (t n : Nat) (ht : t < block.length + n) (m : Nat) :
    (fullSchedule block (n + m)).getD t 0 = (fullSchedule block n).getD t 0 := by
  induction m with
  | zero => rfl
  | succ m ih =>
    have hlen := length_fullSchedule block (n + m)
    rw [← Nat.add_assoc, fullSchedule, ← ih]
    simp only [List.getD_eq_getElem?_getD]
    rw [List.getElem?_append_left (by omega)]

/-- The words W_0..W_15 are the block's (R152). -/
theorem fullSchedule_block (block : List Word) (hb : block.length = 16) (t : Nat) (ht : t < 16) :
    (fullSchedule block 64).getD t 0 = block.getD t 0 := by
  exact fullSchedule_stable block t 0 (by omega) 64

/-- The recurrence of R152. -/
theorem fullSchedule_rec (block : List Word) (hb : block.length = 16) (t : Nat) (h16 : 16 ≤ t) (ht : t < 80) :
    (fullSchedule block 64).getD t 0 =
      rotl ((fullSchedule block 64).getD (t - 3) 0 ^^^ (fullSchedule block 64).getD (t - 8) 0 ^^^
        (fullSchedule block 64).getD (t - 14) 0 ^^^ (fullSchedule block 64).getD (t - 16) 0) 1 := by
  obtain ⟨n, rfl⟩ : ∃ n, t = n + 16 := ⟨t - 16, by omega⟩
  have hs : ∀ k, k < n + 16 → (fullSchedule block 64).getD k 0 = (fullSchedule block n).getD k 0 := fun k hk => by
    have := fullSchedule_stable block k n (by omega) (64 - n)
    rwa [show n + (64 - n) = 64 by omega] at this
  have ht' := fullSchedule_stable block (n + 16) (n + 1) (by omega) (63 - n)
  rw [show n + 1 + (63 - n) = 64 by omega] at ht'
  rw [ht', hs _ (by omega), hs _ (by omega), hs _ (by omega), hs _ (by omega), fullSchedule]
  have hlen := length_fullSchedule block n
  simp only [List.getD_eq_getElem?_getD]
  rw [List.getElem?_append_right (by omega), hlen, hb, show n + 16 - (16 + n) = 0 by omega]
  simp [show n + 16 - 3 = n + 13 by omega, show n + 16 - 8 = n + 8 by omega, show n + 16 - 14 = n + 2 by omega]

/-! ## The circular window -/

/-- Before round t, the window holds the last sixteen words of the expansion (R149). -/
def Buf.HoldsWindow (b : Buf) (block : List Word) (t : Nat) : Prop :=
  ∀ j, t ≤ j + 16 → j < max t 16 → b.word j = (fullSchedule block 64).getD j 0

theorem holdsWindow_zero (b : Buf) : b.HoldsWindow b.toList 0 := by
  intro j _ hj
  rw [fullSchedule_block _ (by simp) j (by omega), toList_getD b j (by omega)]

theorem holdsWindow_schedule {b : Buf} {block : List Word} (hb : block.length = 16) {t : Nat} (ht : t < 80)
    (h : b.HoldsWindow block t) :
    (b.schedule t).HoldsWindow block (t + 1) ∧ (b.schedule t).word t = (fullSchedule block 64).getD t 0 := by
  by_cases h16 : 16 ≤ t
  · have hw : (b.schedule t).HoldsWindow block (t + 1) := by
      intro j hj hj'
      rw [Buf.schedule, if_pos h16, word_setWord]
      by_cases hjt : j = t
      · subst hjt
        rw [if_pos rfl, fullSchedule_rec block hb j h16 ht, h _ (by omega) (by omega), h _ (by omega) (by omega),
          h _ (by omega) (by omega), h _ (by omega) (by omega)]
      · rw [if_neg (by omega), h j (by omega) (by omega)]
    exact ⟨hw, hw t (by omega) (by omega)⟩
  · rw [Buf.schedule, if_neg h16]
    exact ⟨fun j hj hj' => h j (by omega) (by omega), h t (by omega) (by omega)⟩

/-! ## The rounds -/

/-- The working registers after the first n rounds over the expansion. -/
def refRounds (h : HashRegs) (block : List Word) (n : Nat) : WorkRegs :=
  (List.range n).foldl (fun r t => r.round t ((fullSchedule block 64).getD t 0)) ⟨h.h0, h.h1, h.h2, h.h3, h.h4⟩

theorem refCompress_eq (h : HashRegs) (block : List Word) : refCompress h block = h.addWork (refRounds h block 80) := rfl

/-- What holds after n round steps from LOAD: T and A..E, the window, and the frame. -/
theorem rounds_spec (s : State) (n : Nat) (hn : n ≤ 80) :
    ∃ b : Buf, b.HoldsWindow s.buf.toList n ∧
      State.roundStep^[n] s.load =
        { s with buf := b, work := refRounds s.h s.buf.toList n, t := BitVec.ofNat 7 n } := by
  induction n with
  | zero => exact ⟨s.buf, holdsWindow_zero s.buf, rfl⟩
  | succ n ih =>
    obtain ⟨b, hb, hs⟩ := ih (by omega)
    obtain ⟨hw, hv⟩ := holdsWindow_schedule (by simp) (by omega : n < 80) hb
    have ht : (BitVec.ofNat 7 n).toNat = n := by simp; omega
    refine ⟨b.schedule n, hw, ?_⟩
    rw [Function.iterate_succ_apply', hs]
    simp only [State.roundStep, ht, hv, refRounds, List.range_succ, List.foldl_append, List.foldl_cons, List.foldl_nil]
    congr 1
    exact (BitVec.ofNat_add n 1).symm

/-- The window after the last round: W_64..W_79 (R153). -/
def scheduleTail (block : List Word) : Buf := Vector.ofFn fun q => (fullSchedule block 64).getD (64 + q.val) 0

theorem word_scheduleTail (block : List Word) (q : Nat) (hq : q < 16) :
    (scheduleTail block).word q = (fullSchedule block 64).getD (64 + q) 0 := by
  simp [Buf.word, scheduleTail, Nat.mod_eq_of_lt hq]

/-- Everything Compress does, in closed form: H, S, A..E and T, and nothing else. -/
theorem compress_eq (s : State) :
    s.compress =
      { s with
        h := refCompress s.h s.buf.toList
        buf := scheduleTail s.buf.toList
        work := refRounds s.h s.buf.toList 80
        t := 80 } := by
  obtain ⟨b, hb, hs⟩ := rounds_spec s 80 (by omega)
  have hbuf : b = scheduleTail s.buf.toList := buf_ext fun q hq => by
    rw [word_scheduleTail _ q hq, ← hb (64 + q) (by omega) (by omega), ← word_mod b (64 + q),
      show (64 + q) % 16 = q by omega]
  rw [State.compress, hs, hbuf]
  rfl

/-- The same, for a buffer whose words are known. -/
theorem compress_of_block (s : State) (block : List Word) (h : s.buf.toList = block) :
    s.compress =
      { s with
        h := refCompress s.h block
        buf := scheduleTail block
        work := refRounds s.h block 80
        t := 80 } := by
  subst h
  exact compress_eq s

/-- The T, H and window facts of one round step, in the form R152 speaks of. -/
theorem round_uses_expansion (s : State) (n : Nat) (hn : n < 80) :
    (State.roundStep^[n] s.load).t.toNat = n ∧
      ((State.roundStep^[n] s.load).buf.schedule n).word n = (fullSchedule s.buf.toList 64).getD n 0 := by
  obtain ⟨b, hb, hs⟩ := rounds_spec s n (by omega)
  rw [hs]
  exact ⟨by simp; omega, (holdsWindow_schedule (by simp) hn hb).2⟩

end Sys2Proof.Machine
end

