-- ==== Sys2Proof/Laws/Counter.lean ====
section
/-! SUPPORT. The length counter: its two halves against one 64-bit number, and the fill offset (R22, R23, R104). -/

namespace Sys2Proof.Machine

theorem off_eq (s : State) : s.off = s.lLo.toNat % 64 := by
  simp [State.off]

theorem off_lt (s : State) : s.off < 64 := by
  rw [off_eq]; omega

theorem byteCount_toNat (s : State) : s.byteCount.toNat = s.lHi.toNat * 2 ^ 32 + s.lLo.toNat := by
  rw [State.byteCount, BitVec.toNat_append, ← Nat.shiftLeft_add_eq_or_of_lt s.lLo.isLt, Nat.shiftLeft_eq]

theorem append_inj {a b c d : Word} (h : (a ++ b : BitVec 64) = c ++ d) : a = c ∧ b = d := by
  have h' := congrArg BitVec.toNat h
  rw [BitVec.toNat_append, BitVec.toNat_append, ← Nat.shiftLeft_add_eq_or_of_lt b.isLt,
    ← Nat.shiftLeft_add_eq_or_of_lt d.isLt, Nat.shiftLeft_eq, Nat.shiftLeft_eq] at h'
  have hb := b.isLt
  have hd := d.isLt
  exact ⟨BitVec.eq_of_toNat_eq (by omega), BitVec.eq_of_toNat_eq (by omega)⟩

/-- The sum of R104 as a number: the carry is bit 32. -/
theorem counterAdd_halves (s : State) (n : Nat) (hn : n < 2 ^ 32) :
    (s.counterAdd n).lLo.toNat = (s.lLo.toNat + n) % 2 ^ 32 ∧
      (s.counterAdd n).lHi = if 2 ^ 32 ≤ s.lLo.toNat + n then s.lHi + 1 else s.lHi := by
  have hl := s.lLo.isLt
  have hsum : (s.lLo.zeroExtend 33 + BitVec.ofNat 33 n).toNat = s.lLo.toNat + n := by
    simp only [BitVec.toNat_add, BitVec.truncate_eq_setWidth, BitVec.toNat_setWidth, BitVec.toNat_ofNat]
    omega
  constructor
  · simp only [State.counterAdd, BitVec.extractLsb'_toNat, hsum, Nat.shiftRight_zero]
  · simp only [State.counterAdd, BitVec.getLsbD, hsum, Nat.testBit_eq_decide_div_mod_eq]
    by_cases h : 2 ^ 32 ≤ s.lLo.toNat + n
    · rw [if_pos h, if_pos (by simp only [decide_eq_true_eq]; omega)]
    · rw [if_neg h, if_neg (by simp only [decide_eq_true_eq]; omega)]

theorem off_counterAdd (s : State) (n : Nat) (hn : n < 2 ^ 32) : (s.counterAdd n).off = (s.off + n) % 64 := by
  rw [off_eq, off_eq, (counterAdd_halves s n hn).1]
  omega

/-- R22, R104: the halves hold the 64-bit sum. -/
theorem byteCount_counterAdd (s : State) (n : Nat) (hn : n < 2 ^ 32) :
    (s.counterAdd n).byteCount = s.byteCount + BitVec.ofNat 64 n := by
  obtain ⟨hlo, hhi⟩ := counterAdd_halves s n hn
  have hl := s.lLo.isLt
  have hh := s.lHi.isLt
  apply BitVec.eq_of_toNat_eq
  rw [byteCount_toNat, hlo, BitVec.toNat_add, byteCount_toNat, BitVec.toNat_ofNat, hhi]
  split
  · rw [BitVec.toNat_add, show (1 : Word).toNat = 1 from rfl]; omega
  · omega

/-- Two states that agree on the count and on all other fields are equal. -/
theorem counterAdd_ext (s : State) {a b c d : Word} (h : (a ++ b : BitVec 64) = c ++ d) :
    { s with lHi := a, lLo := b } = { s with lHi := c, lLo := d } := by
  obtain ⟨rfl, rfl⟩ := append_inj h
  rfl

theorem counterAdd_eq (s : State) (n : Nat) :
    s.counterAdd n = { s with lHi := (s.counterAdd n).lHi, lLo := (s.counterAdd n).lLo } := rfl

theorem counterAdd_counterAdd (s : State) (m n : Nat) (h : m + n < 2 ^ 32) :
    (s.counterAdd m).counterAdd n = s.counterAdd (m + n) := by
  have h1 := byteCount_counterAdd (s.counterAdd m) n (by omega)
  rw [byteCount_counterAdd s m (by omega), BitVec.add_assoc, ← BitVec.ofNat_add,
    ← byteCount_counterAdd s (m + n) h] at h1
  obtain ⟨hhi, hlo⟩ := append_inj h1
  rw [counterAdd_eq (s.counterAdd m) n, counterAdd_eq s (m + n), hhi, hlo]
  rfl

theorem counterAdd_zero (s : State) : s.counterAdd 0 = s := by
  have h1 := byteCount_counterAdd s 0 (by decide)
  rw [BitVec.add_zero] at h1
  obtain ⟨hhi, hlo⟩ := append_inj h1
  rw [counterAdd_eq, hhi, hlo]

end Sys2Proof.Machine
end

