-- ==== Sys2Proof/Laws/Stream.lean ====
section
/-! SUPPORT. What depositing stream bytes does: without a full block, with one, and byte by byte
(R103, R105, R107, R108). -/

namespace Sys2Proof.Machine

/-! ## Compress and the other fields -/

@[simp] theorem compress_h (s : State) : s.compress.h = refCompress s.h s.buf.toList := by rw [compress_eq]
@[simp] theorem compress_buf (s : State) : s.compress.buf = scheduleTail s.buf.toList := by rw [compress_eq]
@[simp] theorem compress_t (s : State) : s.compress.t = 80 := by rw [compress_eq]
@[simp] theorem compress_lHi (s : State) : s.compress.lHi = s.lHi := by rw [compress_eq]
@[simp] theorem compress_lLo (s : State) : s.compress.lLo = s.lLo := by rw [compress_eq]
@[simp] theorem compress_pend (s : State) : s.compress.pend = s.pend := by rw [compress_eq]
@[simp] theorem compress_phase (s : State) : s.compress.phase = s.phase := by rw [compress_eq]
@[simp] theorem compress_err (s : State) : s.compress.err = s.err := by rw [compress_eq]
@[simp] theorem compress_ecause (s : State) : s.compress.ecause = s.ecause := by rw [compress_eq]
@[simp] theorem compress_seq (s : State) : s.compress.seq = s.seq := by rw [compress_eq]
@[simp] theorem compress_lanes (s : State) : s.compress.lanes = s.lanes := by rw [compress_eq]
@[simp] theorem compress_draws (s : State) : s.compress.draws = s.draws := by rw [compress_eq]
@[simp] theorem compress_host (s : State) : s.compress.host = s.host := by rw [compress_eq]

/-! ## Block words -/

theorem length_beWords (vs : List Byte) : (beWords vs).length = vs.length / 4 := by
  induction vs using beWords.induct with
  | case1 a b c d rest ih => simp [beWords, ih]; omega
  | case2 vs h =>
    match vs, h with
    | [], _ => rfl
    | [_], _ => simp [beWords]
    | [_, _], _ => simp [beWords]
    | [_, _, _], _ => simp [beWords]
    | a :: b :: c :: d :: rest, h => exact absurd rfl (h a b c d rest)

theorem laneByte_append (a b c d : Byte) (k : Nat) (hk : k < 4) :
    laneByte .be (a ++ b ++ c ++ d : BitVec 32) k = [a, b, c, d].getD k 0 := by
  apply BitVec.eq_of_getLsbD_eq
  intro i hi
  simp only [laneByte, lanepos, BitVec.getLsbD_extractLsb', BitVec.getLsbD_append]
  interval_cases k <;> interval_cases i <;> simp

theorem laneByte_beWords (vs : List Byte) :
    ∀ o, o / 4 < vs.length / 4 → laneByte .be ((beWords vs).getD (o / 4) 0) (o % 4) = vs.getD o 0 := by
  induction vs using beWords.induct with
  | case1 a b c d rest ih =>
    intro o ho
    simp only [List.length_cons] at ho
    rw [beWords]
    by_cases h : o < 4
    · rw [show o / 4 = 0 by omega, List.getD_cons_zero, laneByte_append _ _ _ _ _ (by omega)]
      interval_cases o <;> rfl
    · obtain ⟨p, rfl⟩ : ∃ p, o = p + 4 := ⟨o - 4, by omega⟩
      have := ih p (by omega)
      rw [show (p + 4) / 4 = p / 4 + 1 by omega, show (p + 4) % 4 = p % 4 by omega, List.getD_cons_succ, this]
      rfl
  | case2 vs h =>
    intro o ho
    match vs, h with
    | [], _ => simp at ho
    | [_], _ => simp at ho
    | [_, _], _ => simp at ho
    | [_, _, _], _ => simp at ho
    | a :: b :: c :: d :: rest, h => exact absurd rfl (h a b c d rest)

/-- A buffer in internal order is the block of its sixty-four bytes (R53). -/
theorem toList_eq_beWords (b : Buf) (vs : List Byte) (hlen : vs.length = 64)
    (h : ∀ o, o < 64 → b.readByte .be o = vs.getD o 0) : b.toList = beWords vs := by
  have hl : (beWords vs).length = 16 := by rw [length_beWords, hlen]
  refine List.ext_getElem (by simp [hl]) fun q hq hq' => ?_
  have hq16 : q < 16 := by omega
  have e1 := toList_getD b q hq16
  have e2 : (beWords vs).getD q 0 = (beWords vs)[q] := by simp [hq']
  have e1' : b.toList.getD q 0 = b.toList[q] := by simp [hq16]
  rw [← e2, ← e1', e1]
  apply word_eq_of_lanes
  intro k hk
  have hb := h (4 * q + k) (by omega)
  have hw := laneByte_beWords vs (4 * q + k) (by omega)
  rw [show (4 * q + k) / 4 = q by omega, show (4 * q + k) % 4 = k by omega] at hw
  rw [hw, ← hb, Buf.readByte, show (4 * q + k) / 4 = q by omega, show (4 * q + k) % 4 = k by omega]

theorem readByte_normalizeBelow (lanes : LaneOrder) (b : Buf) (n o : Nat) (ho : o < 64) (hn : o / 4 < n) :
    (b.normalizeBelow lanes n).readByte .be o = b.readByte lanes o := by
  rw [Buf.readByte, word_normalizeBelow _ _ _ _ (by omega), if_pos hn, laneByte_normalize _ _ _ (by omega),
    Buf.readByte]

/-! ## Depositing bytes -/

theorem deposit_nil (s : State) (o : Nat) : s.deposit o [] = s := rfl

theorem deposit_cons (s : State) (o : Nat) (v : Byte) (vs : List Byte) :
    s.deposit o (v :: vs) =
      if o + 1 = 64 then
        ((s.setBuf (s.buf.writeByte s.lanes o v)).setBuf
          ((s.buf.writeByte s.lanes o v).normalizeBelow s.lanes 16)).compress.deposit 0 vs
      else (s.setBuf (s.buf.writeByte s.lanes o v)).deposit (o + 1) vs := rfl

/-- Bytes that do not fill the block are only written (R105). -/
theorem deposit_within (vs : List Byte) :
    ∀ (s : State) (o : Nat), o + vs.length < 64 → s.deposit o vs = s.setBuf (s.buf.writeBytes s.lanes o vs) := by
  induction vs with
  | nil => intro s o _; rfl
  | cons v vs ih =>
    intro s o h
    simp only [List.length_cons] at h
    rw [deposit_cons, if_neg (by omega), ih _ _ (by omega)]
    rfl

/-- Bytes that fill the block: those up to offset 63, the compression, and the rest from offset 0 (R107). -/
theorem deposit_across (vs : List Byte) :
    ∀ (s : State) (o : Nat), o < 64 → 64 ≤ o + vs.length →
      s.deposit o vs =
        (s.setBuf ((s.buf.writeBytes s.lanes o (vs.take (64 - o))).normalizeBelow s.lanes 16)).compress.deposit 0
          (vs.drop (64 - o)) := by
  induction vs with
  | nil => intro s o ho h; simp only [List.length_nil] at h; omega
  | cons v vs ih =>
    intro s o ho h
    simp only [List.length_cons] at h
    rw [deposit_cons]
    by_cases h63 : o + 1 = 64
    · rw [if_pos h63, show 64 - o = 0 + 1 by omega]
      simp only [List.take_succ_cons, List.drop_succ_cons, List.take_zero, List.drop_zero]
      rfl
    · rw [if_neg h63, ih _ _ (by omega) (by omega), show 64 - o = (64 - (o + 1)) + 1 by omega]
      simp only [List.take_succ_cons, List.drop_succ_cons]
      rfl

theorem compress_counterAdd (s : State) (n : Nat) : (s.counterAdd n).compress = s.compress.counterAdd n := by
  rw [compress_eq, compress_eq s]
  rfl

/-- Depositing touches the counter's halves in no way, and takes nothing from them. -/
theorem deposit_counterAdd (vs : List Byte) :
    ∀ (s : State) (o n : Nat), (s.counterAdd n).deposit o vs = (s.deposit o vs).counterAdd n := by
  induction vs with
  | nil => intro s o n; rfl
  | cons v vs ih =>
    intro s o n
    simp only [deposit_cons]
    split
    · rw [← ih, ← compress_counterAdd]
      rfl
    · rw [← ih]
      rfl

theorem deposit_append (vs ws : List Byte) :
    ∀ (s : State) (o : Nat), o < 64 → s.deposit o (vs ++ ws) = (s.deposit o vs).deposit ((o + vs.length) % 64) ws := by
  induction vs with
  | nil => intro s o ho; simp [deposit_nil, Nat.mod_eq_of_lt ho]
  | cons v vs ih =>
    intro s o ho
    rw [List.cons_append, deposit_cons, deposit_cons]
    split
    · rw [ih _ _ (by omega)]
      congr 1
      simp only [List.length_cons]; omega
    · rw [ih _ _ (by omega)]
      congr 1
      simp only [List.length_cons]; omega

theorem deposit_lLo (vs : List Byte) : ∀ (s : State) (o : Nat), (s.deposit o vs).lLo = s.lLo := by
  induction vs with
  | nil => intro s o; rfl
  | cons v vs ih => intro s o; rw [deposit_cons]; split <;> rw [ih] <;> simp

theorem off_congr {s t : State} (h : s.lLo = t.lLo) : s.off = t.off := by rw [State.off, State.off, h]

theorem off_updateBytes (s : State) (vs : List Byte) (h : vs.length < 2 ^ 32) :
    (s.updateBytes vs).off = (s.off + vs.length) % 64 := by
  rw [State.updateBytes, off_congr (deposit_lLo vs _ _), off_counterAdd s _ h]

/-- R108: one beat of bytes is the same as two beats that it is cut into. -/
theorem updateBytes_append (s : State) (vs ws : List Byte) (h : vs.length + ws.length < 2 ^ 32) :
    s.updateBytes (vs ++ ws) = (s.updateBytes vs).updateBytes ws := by
  rw [State.updateBytes, List.length_append, deposit_append _ _ _ _ (off_lt s),
    ← counterAdd_counterAdd s _ _ h, deposit_counterAdd vs, State.updateBytes.eq_1 (s.updateBytes vs),
    off_updateBytes s vs (by omega)]
  rfl

theorem updateBytes_nil (s : State) : s.updateBytes [] = s := by
  rw [State.updateBytes, deposit_nil]
  exact counterAdd_zero s

end Sys2Proof.Machine
end

