-- ==== Sys2Proof/Laws/Commands.lean ====
section
/-! SUPPORT. What UPDATE and FINISH do: the two forms of an accepted beat (R103, R107), the padded blocks of FINISH
(R109 to R114), and each as a block of stream bytes. -/

namespace Sys2Proof.Machine

/-! ## UPDATE -/

theorem exec_update_active (s : State) (nb : BitVec 3) (data : Word) (h : s.phase = .active) (hn : nb.toNat ≤ 4) :
    exec (.update nb data) s = .next (s.updateBytes (beatBytes s.lanes nb.toNat data)) := by
  have : ¬ 4 < nb.toNat := by omega
  simp [exec, execUpdate, this, h]

theorem exec_beat_active (s : State) (vs : List Byte) (h : s.phase = .active) (hn : vs.length ≤ 4) :
    exec (beatInstr s.lanes vs) s = .next (s.updateBytes vs) := by
  rw [beatInstr, exec_update_active s _ _ h (by rw [toNat_beatCount vs hn]; exact hn), toNat_beatCount vs hn,
    beatBytes_packBytes s.lanes vs hn]

/-- A beat that completes no block: the count and the bytes (R103, R105). -/
theorem updateBytes_within (s : State) (vs : List Byte) (h : s.off + vs.length < 64) :
    s.updateBytes vs = (s.counterAdd vs.length).setBuf (s.buf.writeBytes s.lanes s.off vs) := by
  rw [State.updateBytes, deposit_within _ _ _ h]
  rfl

/-- The completed block, normalized. -/
def State.fullBlock (s : State) (vs : List Byte) : Buf :=
  (s.buf.writeBytes s.lanes s.off (vs.take (64 - s.off))).normalizeBelow s.lanes 16

/-- A beat that completes a block: the count, the compression, and the bytes left over (R107). -/
theorem updateBytes_across (s : State) (vs : List Byte) (h : 64 ≤ s.off + vs.length) (h2 : vs.length < 64) :
    s.updateBytes vs =
      ((s.counterAdd vs.length).setBuf (s.fullBlock vs)).compress.setBuf
        ((scheduleTail (s.fullBlock vs).toList).writeBytes s.lanes 0 (vs.drop (64 - s.off))) := by
  rw [State.updateBytes, deposit_across _ _ _ (off_lt s) h, deposit_within _ _ _ (by simp; omega)]
  simp [State.fullBlock]

/-- A property of the state that the counter, the buffer and Compress leave alone is left alone by a beat. -/
theorem updateBytes_frame {α : Type} (f : State → α) (hc : ∀ s n, f (State.counterAdd s n) = f s)
    (hb : ∀ s b, f (State.setBuf s b) = f s) (hk : ∀ s, f (State.compress s) = f s) (s : State) (vs : List Byte)
    (h : vs.length < 64) : f (s.updateBytes vs) = f s := by
  by_cases hw : s.off + vs.length < 64
  · rw [updateBytes_within _ _ hw, hb, hc]
  · rw [updateBytes_across _ _ (by omega) h, hb, hk, hb, hc]

section
variable (s : State) (vs : List Byte) (h : vs.length < 64)
include h

theorem updateBytes_phase : (s.updateBytes vs).phase = s.phase := updateBytes_frame _ (by simp) (by simp) (by simp) s vs h
theorem updateBytes_err : (s.updateBytes vs).err = s.err := updateBytes_frame _ (by simp) (by simp) (by simp) s vs h
theorem updateBytes_ecause : (s.updateBytes vs).ecause = s.ecause :=
  updateBytes_frame _ (by simp) (by simp) (by simp) s vs h
theorem updateBytes_seq : (s.updateBytes vs).seq = s.seq := updateBytes_frame _ (by simp) (by simp) (by simp) s vs h
theorem updateBytes_pend : (s.updateBytes vs).pend = s.pend := updateBytes_frame _ (by simp) (by simp) (by simp) s vs h
theorem updateBytes_lanes : (s.updateBytes vs).lanes = s.lanes := updateBytes_frame _ (by simp) (by simp) (by simp) s vs h
theorem updateBytes_host : (s.updateBytes vs).host = s.host := updateBytes_frame _ (by simp) (by simp) (by simp) s vs h

end

theorem updateBytes_byteCount (s : State) (vs : List Byte) (h : vs.length < 64) :
    (s.updateBytes vs).byteCount = s.byteCount + BitVec.ofNat 64 vs.length := by
  rw [← byteCount_counterAdd s vs.length (by omega)]
  by_cases hw : s.off + vs.length < 64
  · rw [updateBytes_within _ _ hw]; simp [State.byteCount]
  · rw [updateBytes_across _ _ (by omega) h]; simp [State.byteCount]

/-- A beat is its bytes one after another (R105, R108). -/
theorem updateBytes_eq_foldl (vs : List Byte) :
    ∀ s : State, vs.length < 2 ^ 32 → s.updateBytes vs = vs.foldl (fun s v => s.updateBytes [v]) s := by
  induction vs with
  | nil => intro s _; exact updateBytes_nil s
  | cons v vs ih =>
    intro s h
    simp only [List.length_cons] at h
    have hsplit := updateBytes_append s [v] vs (by simp; omega)
    rw [List.singleton_append] at hsplit
    rw [hsplit, ih _ (by omega), List.foldl_cons]

/-- Running beats is depositing their bytes one after another, whatever the split (R108). -/
theorem execAll_beats (beats : List (List Byte)) :
    ∀ (s : State) (tail : List Instr), s.phase = .active → (∀ beat ∈ beats, beat.length ≤ 4) →
      execAll (beats.map (beatInstr s.lanes) ++ tail) s =
        execAll tail (beats.flatten.foldl (fun s v => s.updateBytes [v]) s) := by
  induction beats with
  | nil => intro s tail _ _; rfl
  | cons beat beats ih =>
    intro s tail hp hb
    have h4 : beat.length ≤ 4 := hb beat (by simp)
    rw [List.flatten_cons, List.foldl_append, ← updateBytes_eq_foldl beat s (by omega),
      ← ih (s.updateBytes beat) tail (by rw [updateBytes_phase s beat (by omega), hp])
        (fun x hx => hb x (by simp [hx])), updateBytes_lanes s beat (by omega)]
    simp only [List.map_cons, List.cons_append, execAll, exec_beat_active s beat hp h4]

theorem length_validBytes (s : State) : s.validBytes.length = s.off := by simp [State.validBytes]

theorem getD_validBytes (s : State) (o : Nat) (ho : o < s.off) :
    s.validBytes.getD o 0 = s.buf.readByte s.lanes o := by
  simp [State.validBytes, ho]

/-- Byte strings of one length with the same bytes are the same. -/
theorem bytes_ext {vs ws : List Byte} (hl : vs.length = ws.length)
    (h : ∀ o, o < vs.length → vs.getD o 0 = ws.getD o 0) : vs = ws := by
  refine List.ext_getElem hl fun o h1 h2 => ?_
  have := h o h1
  rwa [List.getD_eq_getElem?_getD, List.getD_eq_getElem?_getD, List.getElem?_eq_getElem h1,
    List.getElem?_eq_getElem h2] at this

theorem getD_append_left {vs ws : List Byte} {o : Nat} (h : o < vs.length) : (vs ++ ws).getD o 0 = vs.getD o 0 := by
  simp only [List.getD_eq_getElem?_getD, List.getElem?_append_left h]

theorem getD_append_right {vs ws : List Byte} {o : Nat} (h : vs.length ≤ o) :
    (vs ++ ws).getD o 0 = ws.getD (o - vs.length) 0 := by
  simp only [List.getD_eq_getElem?_getD, List.getElem?_append_right h]

/-- The completed block is the valid bytes and the beat's bytes up to offset 63 (R105, R107, R171). -/
theorem fullBlock_toList (s : State) (vs : List Byte) (h : 64 ≤ s.off + vs.length) :
    (s.fullBlock vs).toList = beWords (s.validBytes ++ vs.take (64 - s.off)) := by
  have hoff := off_lt s
  have hv := length_validBytes s
  refine toList_eq_beWords _ _ (by simp [hv]; omega) fun o ho => ?_
  rw [State.fullBlock, readByte_normalizeBelow _ _ _ _ ho (by omega),
    readByte_writeBytes _ _ _ _ _ (by simp; omega) ho]
  by_cases hlt : o < s.off
  · rw [if_neg (by omega), getD_append_left (by omega), getD_validBytes s o hlt]
  · rw [if_pos (by simp; omega), getD_append_right (by omega), hv]

/-- After a beat that completes no block, the valid bytes are those before and the beat's (R105). -/
theorem validBytes_within (s : State) (vs : List Byte) (h : s.off + vs.length < 64) :
    (s.updateBytes vs).validBytes = s.validBytes ++ vs := by
  have hv := length_validBytes s
  have hoff : (s.updateBytes vs).off = s.off + vs.length := by
    rw [off_updateBytes s vs (by omega)]
    omega
  have hlen := length_validBytes (s.updateBytes vs)
  refine bytes_ext (by simp [hlen, hv, hoff]) fun o ho => ?_
  rw [getD_validBytes _ o (by omega), updateBytes_lanes s vs (by omega), updateBytes_within s vs h, setBuf_buf,
    readByte_writeBytes _ _ _ _ _ (by omega) (by omega)]
  by_cases hlt : o < s.off
  · rw [if_neg (by omega), getD_append_left (by omega), getD_validBytes s o hlt]
  · rw [if_pos (by omega), getD_append_right (by omega), hv]

/-- After a beat that completes a block, the valid bytes are the beat's bytes left over (R107). -/
theorem validBytes_across (s : State) (vs : List Byte) (h : 64 ≤ s.off + vs.length) (h2 : vs.length < 64) :
    (s.updateBytes vs).validBytes = vs.drop (64 - s.off) := by
  have hlt := off_lt s
  have hoff : (s.updateBytes vs).off = s.off + vs.length - 64 := by
    rw [off_updateBytes s vs (by omega)]
    omega
  have hlen := length_validBytes (s.updateBytes vs)
  have hd : (vs.drop (64 - s.off)).length = s.off + vs.length - 64 := by rw [List.length_drop]; omega
  refine bytes_ext (by omega) fun o ho => ?_
  rw [getD_validBytes _ o (by omega), updateBytes_lanes s vs (by omega), updateBytes_across s vs h h2, setBuf_buf,
    readByte_writeBytes _ _ _ _ _ (by omega) (by omega), if_pos (by omega), Nat.sub_zero]

/-- H after a beat that completes no block. -/
theorem h_within (s : State) (vs : List Byte) (h : s.off + vs.length < 64) : (s.updateBytes vs).h = s.h := by
  rw [updateBytes_within _ _ h]
  simp

/-- H after a beat that completes a block. -/
theorem h_across (s : State) (vs : List Byte) (h : 64 ≤ s.off + vs.length) (h2 : vs.length < 64) :
    (s.updateBytes vs).h = refCompress s.h (beWords (s.validBytes ++ vs.take (64 - s.off))) := by
  rw [updateBytes_across _ _ h h2]
  simp [fullBlock_toList s vs h]

/-! ## FINISH -/

/-- The bytes of the pad word and of the words around it (R110, R111). -/
theorem word_pad (lanes : LaneOrder) (b : Buf) (i q : Nat) (hi : i < 64) (hq : q < 16) :
    (b.pad lanes i).word q =
      if q = i / 4 then
        ((b.normalizeBelow lanes ((i + 3) / 4)).word q &&& keepMask (i % 4)) ||| padBit (i % 4)
      else if q < i / 4 then normalize lanes (b.word q) else b.word q := by
  rw [Buf.pad, word_setWord]
  by_cases h : q = i / 4
  · rw [if_pos (by omega), if_pos h, h]
  · rw [if_neg (by omega), if_neg h, word_normalizeBelow _ _ _ _ hq]
    by_cases h2 : q < i / 4
    · rw [if_pos (by omega), if_pos h2]
    · rw [if_neg (by omega), if_neg h2]

/-- KEEP keeps the valid lanes of an internal-order word and PADBIT sets the next one to 0x80 (R111). -/
theorem laneByte_padWord (w : Word) (v k : Nat) (hv : v < 4) (hk : k < 4) :
    laneByte .be ((w &&& keepMask v) ||| padBit v) k =
      if k < v then laneByte .be w k else if k = v then 0x80 else 0 := by
  apply BitVec.eq_of_getLsbD_eq
  intro i hi
  interval_cases v <;> interval_cases k <;> simp [laneByte, lanepos, keepMask, padBit, hi] <;>
    interval_cases i <;> simp

theorem readByte_pad (lanes : LaneOrder) (b : Buf) (i o : Nat) (hi : i < 64) (ho : o < 4 * (i / 4) + 4) :
    (b.pad lanes i).readByte .be o = if o < i then b.readByte lanes o else if o = i then 0x80 else 0 := by
  rw [Buf.readByte, word_pad _ _ _ _ hi (by omega)]
  by_cases hq : o / 4 = i / 4
  · rw [if_pos hq, laneByte_padWord _ _ _ (by omega) (by omega)]
    by_cases h : o < i
    · rw [if_pos (by omega), if_pos h, word_normalizeBelow _ _ _ _ (by omega), if_pos (by omega),
        laneByte_normalize _ _ _ (by omega), Buf.readByte]
    · rw [if_neg (by omega), if_neg h]
      by_cases h2 : o = i
      · rw [if_pos (by omega), if_pos h2]
      · rw [if_neg (by omega), if_neg h2]
  · rw [if_neg hq, if_pos (by omega), if_pos (by omega), laneByte_normalize _ _ _ (by omega), Buf.readByte]

theorem readByte_zeroRange (b : Buf) (first last o : Nat) (ho : o < 64) :
    (b.zeroRange first last).readByte .be o = if first ≤ o / 4 ∧ o / 4 < last then 0 else b.readByte .be o := by
  rw [Buf.readByte, word_zeroRange _ _ _ _ (by omega)]
  split
  · simp [laneByte]
  · rfl

/-- The length words as the number L · 8 (R114). -/
theorem bitLen_eq (s : State) : (s.bitLenHi ++ s.bitLenLo : BitVec 64) = s.byteCount * 8 := by
  rw [show (8 : BitVec 64) = BitVec.twoPow 64 3 from rfl, BitVec.mul_twoPow_eq_shiftLeft]
  apply BitVec.eq_of_getLsbD_eq
  intro i hi
  simp only [State.bitLenHi, State.bitLenLo, State.byteCount, BitVec.getLsbD_append, BitVec.getLsbD_shiftLeft,
    BitVec.getLsbD_or, BitVec.getLsbD_ushiftRight]
  by_cases h3 : i < 3
  · simp [show i < 32 by omega, h3]
  · by_cases h32 : i < 32
    · simp [h32, h3, hi, show i - 3 < 32 by omega]
    · by_cases h35 : i < 35
      · simp [h32, h3, hi, show i - 32 < 3 by omega, show i - 3 < 32 by omega, show 29 + (i - 32) = i - 3 by omega]
      · simp [h32, h3, hi, show ¬ i - 32 < 3 by omega, show i - 32 < 32 by omega, show ¬ i - 3 < 32 by omega,
          show i - 32 - 3 = i - 3 - 32 by omega, BitVec.getLsbD_of_ge s.lLo (29 + (i - 32)) (by omega)]

/-- The bytes of a number made of two words. -/
theorem getD_be64_append (hi lo : Word) (k : Nat) (hk : k < 8) :
    (be64 (hi ++ lo)).getD k 0 = if k < 4 then laneByte .be hi k else laneByte .be lo (k - 4) := by
  apply BitVec.eq_of_getLsbD_eq
  intro i hi'
  interval_cases k <;>
    simp only [be64, laneByte, lanepos, List.getD_cons_zero, List.getD_cons_succ, BitVec.getLsbD_extractLsb',
      BitVec.getLsbD_append, hi', decide_true, Bool.true_and, Nat.reduceLT, Nat.reduceSub, Nat.reduceMul, if_true,
      if_false] <;>
    interval_cases i <;> simp

theorem readByte_putLength (s : State) (b : Buf) (o : Nat) (ho : o < 64) :
    (b.putLength s.bitLenHi s.bitLenLo).readByte .be o =
      if o < 56 then b.readByte .be o else (be64 (s.byteCount * 8)).getD (o - 56) 0 := by
  simp only [Buf.putLength, Buf.readByte, word_setWord]
  by_cases h : o < 56
  · rw [if_neg (by omega), if_neg (by omega), if_pos h]
  · rw [if_neg h, ← bitLen_eq, getD_be64_append _ _ _ (by omega)]
    by_cases h60 : o < 60
    · rw [if_neg (by omega), if_pos (by omega), if_pos (by omega), show o % 4 = o - 56 by omega]
    · rw [if_pos (by omega), if_neg (by omega), show o % 4 = o - 56 - 4 by omega]

/-! ## The blocks of FINISH as stream bytes (R109 to R114) -/

/-- The valid bytes and the padding bit. -/
theorem getD_padded (s : State) (n o : Nat) :
    (s.validBytes ++ (0x80 : Byte) :: List.replicate n 0).getD o 0 =
      if o < s.off then s.buf.readByte s.lanes o else if o = s.off then 0x80 else 0 := by
  have hv := length_validBytes s
  by_cases h : o < s.off
  · rw [getD_append_left (by omega), getD_validBytes s o h, if_pos h]
  · rw [getD_append_right (by omega), if_neg h, hv]
    by_cases h2 : o = s.off
    · rw [if_pos h2, h2, Nat.sub_self, List.getD_cons_zero]
    · rw [if_neg h2, show o - s.off = (o - s.off - 1) + 1 by omega, List.getD_cons_succ]
      simp only [List.getD_eq_getElem?_getD, List.getElem?_replicate]
      split <;> rfl

theorem prepOneBlock_toList (s : State) (h : s.off ≤ 55) :
    s.prepOneBlock.buf.toList =
      beWords (s.validBytes ++ ((0x80 : Byte) :: List.replicate (55 - s.off) 0) ++ be64 (s.byteCount * 8)) := by
  have hv := length_validBytes s
  refine toList_eq_beWords _ _ (by simp [hv, be64]; omega) fun o ho => ?_
  rw [State.prepOneBlock, setBuf_buf, readByte_putLength _ _ _ ho]
  by_cases h56 : o < 56
  · rw [if_pos h56, getD_append_left (by simp [hv]; omega), getD_padded, readByte_zeroRange _ _ _ _ ho]
    by_cases hz : s.off / 4 + 1 ≤ o / 4
    · rw [if_pos (by omega), if_neg (by omega), if_neg (by omega)]
    · rw [if_neg (by omega), readByte_pad _ _ _ _ (by omega) (by omega)]
  · rw [if_neg h56, getD_append_right (by simp [hv]; omega)]
    congr 1
    simp [hv]; omega

theorem prepFirstBlock_toList (s : State) (h : 56 ≤ s.off) :
    s.prepFirstBlock.buf.toList = beWords (s.validBytes ++ ((0x80 : Byte) :: List.replicate (63 - s.off) 0)) := by
  have hv := length_validBytes s
  have hoff := off_lt s
  refine toList_eq_beWords _ _ (by simp [hv]; omega) fun o ho => ?_
  rw [State.prepFirstBlock, getD_padded, setBuf_buf, readByte_zeroRange _ _ _ _ ho]
  by_cases hz : s.off / 4 + 1 ≤ o / 4
  · rw [if_pos (by omega), if_neg (by omega), if_neg (by omega)]
  · rw [if_neg (by omega), readByte_pad _ _ _ _ (by omega) (by omega)]

theorem prepLastBlock_toList (s : State) :
    s.prepLastBlock.buf.toList = beWords (List.replicate 56 (0 : Byte) ++ be64 (s.byteCount * 8)) := by
  refine toList_eq_beWords _ _ (by simp [be64]) fun o ho => ?_
  rw [State.prepLastBlock, setBuf_buf, readByte_putLength _ _ _ ho]
  by_cases h56 : o < 56
  · rw [if_pos h56, getD_append_left (by simp; omega), readByte_zeroRange _ _ _ _ ho, if_pos (by omega)]
    simp only [List.getD_eq_getElem?_getD, List.getElem?_replicate]
    rw [if_pos h56]
    rfl
  · rw [if_neg h56, getD_append_right (by simp; omega)]
    simp

end Sys2Proof.Machine
end

