-- ==== Sys2Proof/Laws/Decode.lean ====
section
/-! SUPPORT. The fields of a packed command word, and R76's mask against the fields OPC and RSV. -/

namespace Sys2Proof

@[simp] theorem opcField_packWord (opc : BitVec 4) (rsv : BitVec 1) (nb : BitVec 3) (data : Word) :
    opcField (packWord opc rsv nb data) = opc := by
  apply BitVec.eq_of_getLsbD_eq
  intro i hi
  simp only [opcField, packWord, BitVec.getLsbD_extractLsb', BitVec.getLsbD_append]
  interval_cases i <;> simp

@[simp] theorem rsvField_packWord (opc : BitVec 4) (rsv : BitVec 1) (nb : BitVec 3) (data : Word) :
    rsvField (packWord opc rsv nb data) = rsv.getLsbD 0 := by
  simp only [rsvField, packWord, BitVec.getLsbD_append]
  simp

@[simp] theorem nbField_packWord (opc : BitVec 4) (rsv : BitVec 1) (nb : BitVec 3) (data : Word) :
    nbField (packWord opc rsv nb data) = nb := by
  apply BitVec.eq_of_getLsbD_eq
  intro i hi
  simp only [nbField, packWord, BitVec.getLsbD_extractLsb', BitVec.getLsbD_append]
  interval_cases i <;> simp

@[simp] theorem dataField_packWord (opc : BitVec 4) (rsv : BitVec 1) (nb : BitVec 3) (data : Word) :
    dataField (packWord opc rsv nb data) = data := by
  apply BitVec.eq_of_getLsbD_eq
  intro i hi
  simp only [dataField, packWord, BitVec.getLsbD_extractLsb', BitVec.getLsbD_append]
  simp [hi]

/-- The mask 0xF800000000 of R76 selects OPC and RSV. -/
theorem masked_eq_iff (w : CmdWord) (opc : BitVec 4) :
    w &&& 0xF800000000 = opc ++ (0 : BitVec 36) ↔ opcField w = opc ∧ rsvField w = false := by
  constructor
  · intro h
    have hbit : ∀ i, (w &&& 0xF800000000).getLsbD i = (opc ++ (0 : BitVec 36)).getLsbD i := fun i => by rw [h]
    constructor
    · apply BitVec.eq_of_getLsbD_eq
      intro i hi
      have := hbit (36 + i)
      simp only [opcField, BitVec.getLsbD_extractLsb', BitVec.getLsbD_append, BitVec.getLsbD_and] at *
      interval_cases i <;> simpa using this
    · have := hbit 35
      simp only [rsvField, BitVec.getLsbD_append, BitVec.getLsbD_and] at *
      simpa using this
  · rintro ⟨rfl, hr⟩
    apply BitVec.eq_of_getLsbD_eq
    intro i hi
    simp only [opcField, rsvField, BitVec.getLsbD_extractLsb', BitVec.getLsbD_append, BitVec.getLsbD_and] at *
    by_cases h : i < 36
    · by_cases h35 : i = 35
      · subst h35
        rw [hr]
        rfl
      · have : (0xF800000000 : BitVec 40).getLsbD i = false := by
          interval_cases i <;> first | rfl | omega
        rw [this]
        simp [h]
    · have : i = 36 ∨ i = 37 ∨ i = 38 ∨ i = 39 := by omega
      rcases this with rfl | rfl | rfl | rfl <;> simp

/-- An opcode is reserved, or is one of the four (R75). -/
theorem opcField_cases (w : CmdWord) :
    4 ≤ (opcField w).toNat ∨ opcField w = 0 ∨ opcField w = 1 ∨ opcField w = 2 ∨ opcField w = 3 := by
  generalize opcField w = k
  revert k
  decide

end Sys2Proof
end

