-- ==== Sys2Proof/Laws/Port.lean ====
section
/-! SUPPORT. What FINISH, an accepted word, a micro-step and a step can do, each said once (R100, R109, R202, R224,
R229), and what each leaves alone. -/

namespace Sys2Proof.Machine

/-! ## The fill offset under the named updates -/

@[simp] theorem off_setBuf (s : State) (b : Buf) : (s.setBuf b).off = s.off := (rfl)
@[simp] theorem off_setSeq (s : State) (q : Seq) : (s.setSeq q).off = s.off := (rfl)
@[simp] theorem off_setPend (s : State) (vs : List Byte) : (s.setPend vs).off = s.off := (rfl)
@[simp] theorem off_load (s : State) : s.load.off = s.off := (rfl)
@[simp] theorem off_roundStep (s : State) : s.roundStep.off = s.off := (rfl)
@[simp] theorem off_fold (s : State) : s.fold.off = s.off := (rfl)
@[simp] theorem off_finalize (s : State) : s.finalize.off = s.off := (rfl)

/-! ## FINISH -/

theorem exec_finish_active (s : State) (h : s.phase = .active) : exec .finish s = .next s.finishContext := by
  simp [exec, execFinish, h]

theorem exec_finish_one (s : State) (h : s.phase = .active) (h5 : s.off ≤ 55) :
    exec .finish s = .next s.prepOneBlock.compress.finalize := by
  have : ¬ 56 ≤ s.off := by omega
  simp [exec, execFinish, h, State.finishContext, this]

theorem exec_finish_two (s : State) (h : s.phase = .active) (h5 : 56 ≤ s.off) :
    exec .finish s = .next s.prepFirstBlock.compress.prepLastBlock.compress.finalize := by
  simp [exec, execFinish, h, State.finishContext, h5]

/-- A property of the state that the buffer, Compress and PHASE leave alone is left alone by FINISH. -/
theorem finishContext_frame {α : Type} (f : State → α) (hb : ∀ s b, f (State.setBuf s b) = f s)
    (hk : ∀ s, f (State.compress s) = f s) (hf : ∀ s, f (State.finalize s) = f s) (s : State) :
    f s.finishContext = f s := by
  unfold State.finishContext
  split
  · rw [hf, hk, State.prepLastBlock, hb, hk, State.prepFirstBlock, hb]
  · rw [hf, hk, State.prepOneBlock, hb]

section
variable (s : State)

@[simp] theorem finishContext_lHi : s.finishContext.lHi = s.lHi :=
  finishContext_frame (fun s => s.lHi) (by simp) (by simp) (by simp) s
@[simp] theorem finishContext_lLo : s.finishContext.lLo = s.lLo :=
  finishContext_frame (fun s => s.lLo) (by simp) (by simp) (by simp) s
@[simp] theorem finishContext_pend : s.finishContext.pend = s.pend :=
  finishContext_frame (fun s => s.pend) (by simp) (by simp) (by simp) s
@[simp] theorem finishContext_err : s.finishContext.err = s.err :=
  finishContext_frame (fun s => s.err) (by simp) (by simp) (by simp) s
@[simp] theorem finishContext_ecause : s.finishContext.ecause = s.ecause :=
  finishContext_frame (fun s => s.ecause) (by simp) (by simp) (by simp) s
@[simp] theorem finishContext_seq : s.finishContext.seq = s.seq :=
  finishContext_frame (fun s => s.seq) (by simp) (by simp) (by simp) s
@[simp] theorem finishContext_lanes : s.finishContext.lanes = s.lanes :=
  finishContext_frame (fun s => s.lanes) (by simp) (by simp) (by simp) s
@[simp] theorem finishContext_draws : s.finishContext.draws = s.draws :=
  finishContext_frame (fun s => s.draws) (by simp) (by simp) (by simp) s
@[simp] theorem finishContext_host : s.finishContext.host = s.host :=
  finishContext_frame (fun s => s.host) (by simp) (by simp) (by simp) s
@[simp] theorem finishContext_byteCount : s.finishContext.byteCount = s.byteCount := by simp [State.byteCount]
@[simp] theorem finishContext_phase : s.finishContext.phase = .finalized := by
  unfold State.finishContext
  split <;> simp
@[simp] theorem finishContext_t : s.finishContext.t = 80 := by
  unfold State.finishContext
  split <;> simp

end

/-- T after a beat: as before, or 80 after a compression. -/
theorem updateBytes_t (s : State) (vs : List Byte) (h : vs.length < 64) :
    (s.updateBytes vs).t = s.t ∨ (s.updateBytes vs).t = 80 := by
  by_cases hw : s.off + vs.length < 64
  · rw [updateBytes_within _ _ hw]
    simp
  · rw [updateBytes_across _ _ (by omega) h]
    simp

/-! ## An accepted word -/

/-- Everything that accepting a word can do: nothing, START, a command error, a beat, or FINISH (R100). -/
theorem accept_cases (w : CmdWord) (s : State) :
    (accept w s = .next s ∧ decode w = .ok .nop) ∨
      (accept w s = .next s.startContext ∧ decode w = .ok .start) ∨
      (∃ c, accept w s = .next (s.raiseCmdError c)) ∨
      (∃ nb data, decode w = .ok (.update nb data) ∧ nb.toNat ≤ 4 ∧ s.phase = .active ∧
        accept w s = .next (s.updateBytes (beatBytes s.lanes nb.toNat data))) ∨
      (decode w = .ok .finish ∧ s.phase = .active ∧ accept w s = .next s.finishContext) := by
  unfold accept
  cases hd : decode w with
  | error c => exact .inr (.inr (.inl ⟨_, rfl⟩))
  | ok i =>
    cases i with
    | nop => exact .inl ⟨rfl, rfl⟩
    | start => exact .inr (.inl ⟨rfl, rfl⟩)
    | update nb data =>
      by_cases h1 : 4 < nb.toNat
      · exact .inr (.inr (.inl ⟨.rsvdNb, by simp [exec, execUpdate, h1]⟩))
      · cases h2 : s.phase with
        | finalized => exact .inr (.inr (.inl ⟨.seq, by simp [exec, execUpdate, h1, h2]⟩))
        | active =>
          exact .inr (.inr (.inr (.inl ⟨nb, data, rfl, by omega, rfl, exec_update_active s nb data h2 (by omega)⟩)))
    | finish =>
      cases h2 : s.phase with
      | finalized => exact .inr (.inr (.inl ⟨.seq, by simp [exec, execFinish, h2]⟩))
      | active => exact .inr (.inr (.inr (.inr ⟨rfl, rfl, exec_finish_active s h2⟩)))

/-- A property of the state that the named updates of START, UPDATE, FINISH and the command error leave alone is left
alone by every accepted word. -/
theorem accept_frame {α : Type} (f : State → α) (hs : ∀ s, f (State.startContext s) = f s)
    (he : ∀ s c, f (State.raiseCmdError s c) = f s) (hc : ∀ s n, f (State.counterAdd s n) = f s)
    (hb : ∀ s b, f (State.setBuf s b) = f s) (hk : ∀ s, f (State.compress s) = f s)
    (hf : ∀ s, f (State.finalize s) = f s) (w : CmdWord) (s : State) : ∃ t, accept w s = .next t ∧ f t = f s := by
  rcases accept_cases w s with ⟨h, _⟩ | ⟨h, _⟩ | ⟨c, h⟩ | ⟨nb, data, _, hn, _, h⟩ | ⟨_, _, h⟩
  · exact ⟨_, h, rfl⟩
  · exact ⟨_, h, hs s⟩
  · exact ⟨_, h, he s c⟩
  · exact ⟨_, h, updateBytes_frame f hc hb hk s _ (by rw [length_beatBytes]; omega)⟩
  · exact ⟨_, h, finishContext_frame f hb hk hf s⟩

/-! ## A micro-step -/

/-- A property of the state that a write of the buffer leaves alone is left alone by the preparation of a block. -/
theorem prepare_frame {α : Type} (f : State → α) (hb : ∀ s b, f (State.setBuf s b) = f s) (s : State) (job : Job) :
    f (s.prepare job) = f s := by
  cases job <;> simp only [State.prepare, State.prepOneBlock, State.prepFirstBlock, State.prepLastBlock, hb]

/-- A property of the state that every named update of the sequencer leaves alone is left alone by a micro-step. -/
theorem microStep_frame {α : Type} (f : State → α) (hb : ∀ s b, f (State.setBuf s b) = f s)
    (hl : ∀ s, f (State.load s) = f s) (hr : ∀ s, f (State.roundStep s) = f s) (hd : ∀ s, f (State.fold s) = f s)
    (hf : ∀ s, f (State.finalize s) = f s) (hq : ∀ s q, f (State.setSeq s q) = f s)
    (hp : ∀ s vs, f (State.setPend s vs) = f s) (s : State) : f s.microStep = f s := by
  unfold State.microStep
  split
  · rfl
  · rw [hq, hl, prepare_frame f hb]
  · split_ifs
    · exact hr s
    · rename_i job _ _
      cases job <;> simp only [State.complete, hq, hp, hb, hf, hd]

section
variable (s : State)

@[simp] theorem microStep_host : s.microStep.host = s.host :=
  microStep_frame (fun s => s.host) (by simp) (by simp) (by simp) (by simp) (by simp) (by simp) (by simp) s
@[simp] theorem microStep_lanes : s.microStep.lanes = s.lanes :=
  microStep_frame (fun s => s.lanes) (by simp) (by simp) (by simp) (by simp) (by simp) (by simp) (by simp) s
@[simp] theorem microStep_err : s.microStep.err = s.err :=
  microStep_frame (fun s => s.err) (by simp) (by simp) (by simp) (by simp) (by simp) (by simp) (by simp) s
@[simp] theorem microStep_ecause : s.microStep.ecause = s.ecause :=
  microStep_frame (fun s => s.ecause) (by simp) (by simp) (by simp) (by simp) (by simp) (by simp) (by simp) s
@[simp] theorem microStep_lHi : s.microStep.lHi = s.lHi :=
  microStep_frame (fun s => s.lHi) (by simp) (by simp) (by simp) (by simp) (by simp) (by simp) (by simp) s
@[simp] theorem microStep_lLo : s.microStep.lLo = s.lLo :=
  microStep_frame (fun s => s.lLo) (by simp) (by simp) (by simp) (by simp) (by simp) (by simp) (by simp) s

end

/-! ## A step -/

theorem seq_idle_of_cmdReady {s : State} {r : Bool} (h : s.cmdReady r = true) : s.seq = .idle := by
  cases h2 : s.seq <;> simp_all [State.cmdReady, State.busy]

/-- Everything that a step can do: a reset edge, accepting a presented word, passing over an edge without a word, or a
micro-step (which does nothing in IDLE). -/
theorem step_cases (s : State) :
    (∃ p rest, s.host = p :: rest ∧ p.rst = true ∧ step s = .next (s.setHost rest).resetEdge) ∨
      (∃ p rest, s.host = p :: rest ∧ p.rst = false ∧ s.seq = .idle ∧ p.cmdValid = true ∧
        step s = accept p.cmd (s.setHost rest)) ∨
      (∃ p rest, s.host = p :: rest ∧ p.rst = false ∧ s.seq = .idle ∧ p.cmdValid = false ∧
        step s = .next (s.setHost rest)) ∨
      ((s.host = [] ∨ s.seq ≠ .idle) ∧ step s = .next s.microStep) := by
  unfold step nextEdge
  cases hh : s.host with
  | nil => exact .inr (.inr (.inr ⟨.inl rfl, rfl⟩))
  | cons p rest =>
    simp only
    split_ifs with h1 h2 h3
    · exact .inl ⟨p, rest, rfl, h1, rfl⟩
    · exact .inr (.inl ⟨p, rest, rfl, by simpa using h1, seq_idle_of_cmdReady h2, h3, rfl⟩)
    · exact .inr (.inr (.inl ⟨p, rest, rfl, by simpa using h1, seq_idle_of_cmdReady h2, by simpa using h3, rfl⟩))
    · refine .inr (.inr (.inr ⟨.inr fun hq => h2 ?_, rfl⟩))
      simp [State.cmdReady, State.busy, hq, h1]

/-- A word that decodes to a command, presented in IDLE, is executed (R100, R224). -/
theorem step_presented (s : State) (w : CmdWord) (i : Instr) (rest : List PortIn) (hs : s.seq = .idle)
    (hq : s.host = present w :: rest) (hd : decode w = .ok i) : step s = exec i (s.setHost rest) := by
  simp [step, nextEdge, hq, present, State.cmdReady, State.busy, hs, accept, hd]

theorem core_run_succ (s t : State) (n : Nat) (h : step s = .next t) :
    Host.Core.run Sys2Proof.core (n + 1) s = Host.Core.run Sys2Proof.core n t := by
  have key : ∀ (M : Host.Core) (s t : M.State), M.step s = .next t → M.run (n + 1) s = M.run n t := by
    intro M s t h
    conv => lhs; unfold Host.Core.run
    rw [h]
  exact key Sys2Proof.core s t h

/-! ## ERR and ECAUSE beside the commands (R204) -/

/-- The state with other ERR and ECAUSE and nothing else changed. -/
def State.setErr (s : State) (e : Bool) (c : BitVec 3) : State := { s with err := e, ecause := c }

section
variable (s : State) (e : Bool) (c : BitVec 3)

theorem setErr_off : (s.setErr e c).off = s.off := (rfl)
theorem setErr_lanes : (s.setErr e c).lanes = s.lanes := (rfl)
theorem setErr_buf : (s.setErr e c).buf = s.buf := (rfl)
theorem setErr_fullBlock (vs : List Byte) : (s.setErr e c).fullBlock vs = s.fullBlock vs := (rfl)
theorem setErr_counterAdd (n : Nat) : (s.setErr e c).counterAdd n = (s.counterAdd n).setErr e c := (rfl)
theorem setErr_setBuf (b : Buf) : (s.setErr e c).setBuf b = (s.setBuf b).setErr e c := (rfl)
theorem setErr_finalize : (s.setErr e c).finalize = s.finalize.setErr e c := (rfl)

theorem setErr_compress : (s.setErr e c).compress = s.compress.setErr e c := by
  rw [compress_eq, compress_eq s]
  unfold State.setErr
  rfl

theorem setErr_updateBytes (vs : List Byte) (h : vs.length < 64) :
    (s.setErr e c).updateBytes vs = (s.updateBytes vs).setErr e c := by
  by_cases hw : s.off + vs.length < 64
  · rw [updateBytes_within _ _ hw, updateBytes_within _ _ (by rw [setErr_off]; exact hw), setErr_counterAdd,
      setErr_setBuf, setErr_off, setErr_lanes, setErr_buf]
  · rw [updateBytes_across s _ (by omega) h, updateBytes_across _ _ (by rw [setErr_off]; omega) h, setErr_counterAdd,
      setErr_fullBlock, setErr_setBuf, setErr_compress, setErr_setBuf, setErr_off, setErr_lanes]

theorem setErr_finishContext : (s.setErr e c).finishContext = s.finishContext.setErr e c := by
  have e1 : (s.setErr e c).prepOneBlock = s.prepOneBlock.setErr e c := by
    unfold State.prepOneBlock
    exact setErr_setBuf s e c _
  have e2 : (s.setErr e c).prepFirstBlock = s.prepFirstBlock.setErr e c := by
    unfold State.prepFirstBlock
    exact setErr_setBuf s e c _
  have e3 : ∀ s : State, (s.setErr e c).prepLastBlock = s.prepLastBlock.setErr e c := by
    intro s
    unfold State.prepLastBlock
    exact setErr_setBuf s e c _
  unfold State.finishContext
  rw [setErr_off]
  split_ifs
  · rw [e2, setErr_compress, e3, setErr_compress, setErr_finalize]
  · rw [e1, setErr_compress, setErr_finalize]

end

end Sys2Proof.Machine
end

