-- ==== Sys2Proof/Laws/Clock.lean ====
section
/-! SUPPORT. The clock level: what the 82 busy edges of one compression do (R229), and the commands that they belong
to. -/

namespace Sys2Proof.Machine

/-! ## Sequencer position and pending bytes beside the datapath -/

theorem setSeq_setSeq (s : State) (q r : Seq) : (s.setSeq q).setSeq r = s.setSeq r := (rfl)
theorem roundStep_setSeq (s : State) (q : Seq) : (s.setSeq q).roundStep = s.roundStep.setSeq q := (rfl)
theorem fold_setSeq (s : State) (q : Seq) : (s.setSeq q).fold = s.fold.setSeq q := (rfl)
theorem finalize_setSeq (s : State) (q : Seq) : (s.setSeq q).finalize = s.finalize.setSeq q := (rfl)

theorem prepare_setSeq (s : State) (q : Seq) (job : Job) : (s.setSeq q).prepare job = (s.prepare job).setSeq q := by
  cases job <;> simp only [State.prepare, State.prepOneBlock, State.prepFirstBlock, State.prepLastBlock] <;> exact (rfl)

theorem compress_setSeq (s : State) (q : Seq) : (s.setSeq q).compress = s.compress.setSeq q := by
  rw [compress_eq, compress_eq s]
  rfl

theorem compress_setPend (s : State) (vs : List Byte) : (s.setPend vs).compress = s.compress.setPend vs := by
  rw [compress_eq, compress_eq s]
  rfl

theorem setSeq_self (s : State) (h : s.seq = .idle) : s.setSeq .idle = s := by
  cases s
  simp_all [State.setSeq]

/-! ## Edges -/

theorem clockEdge_busy (s : State) (p : PortIn) (hr : p.rst = false) (hb : s.busy = true) :
    clockEdge p s = s.microStep := by
  simp [clockEdge, hr, State.cmdReady, hb]

theorem clockEdge_accept (s : State) (w : CmdWord) (hs : s.seq = .idle) : clockEdge (present w) s = s.beginWord w := by
  simp [clockEdge, present, State.cmdReady, State.busy, hs]

/-- While the core stays BUSY and no reset comes, the edges are micro-steps, whatever the host drives. -/
theorem clockRun_busy (ps : List PortIn) : ∀ s, (∀ p ∈ ps, p.rst = false) →
    (∀ k, k < ps.length → (State.microStep^[k] s).busy = true) → clockRun ps s = State.microStep^[ps.length] s := by
  induction ps with
  | nil => intro s _ _; rfl
  | cons p ps ih =>
    intro s hr hb
    rw [clockRun, clockEdge_busy s p (hr p (by simp)) (hb 0 (by simp)),
      ih _ (fun q hq => hr q (by simp [hq])) (fun k hk => by
        have := hb (k + 1) (by simp; omega)
        rwa [Function.iterate_succ_apply] at this),
      List.length_cons, Function.iterate_succ_apply]

/-- A word whose acceptance leads from IDLE to BUSY is an UPDATE that completes a block, or FINISH (R225). -/
theorem beginWord_busy (s : State) (w : CmdWord) (hs : s.busy = false) (hb : (s.beginWord w).busy = true) :
    (∃ nb data, decode w = .ok (.update nb data) ∧ nb.toNat ≤ 4 ∧
      s.beginWord w = s.beginBlock (beatBytes s.lanes nb.toNat data)) ∨
    (decode w = .ok .finish ∧ s.beginWord w = s.beginFinish) := by
  have hu : ∀ vs : List Byte, vs.length < 64 → (s.updateBytes vs).busy = false := fun vs h => by
    rw [State.busy, updateBytes_seq s vs h]
    exact hs
  have he : ∀ c, (s.raiseCmdError c).busy = false := fun c => hs
  unfold State.beginWord at hb ⊢
  cases hd : decode w with
  | error c => simp [hd, he] at hb
  | ok i =>
    cases i with
    | nop => simp [hd, State.beginInstr, hs] at hb
    | start =>
      have : s.startContext.busy = false := hs
      simp [hd, State.beginInstr, this] at hb
    | update nb data =>
      simp only [hd, State.beginInstr] at hb ⊢
      split_ifs at hb ⊢ with h1 h2
      · simp [he] at hb
      · simp [he] at hb
      · refine .inl ⟨nb, data, rfl, by omega, ?_⟩
        unfold State.beginUpdate at hb ⊢
        split_ifs at hb ⊢ with hw
        · rw [hu _ (by omega)] at hb
          exact absurd hb (by decide)
        · rfl
    | finish =>
      simp only [hd, State.beginInstr] at hb ⊢
      split_ifs at hb ⊢ with h1
      · simp [he] at hb
      · exact .inr ⟨trivial, rfl⟩

/-! ## One compression -/

theorem t_rounds (s : State) (n : Nat) (hn : n ≤ 80) : (State.roundStep^[n] s.load).t.toNat = n := by
  obtain ⟨b, _, e⟩ := rounds_spec s n hn
  rw [e]
  simp
  omega

/-- After the preparing edge and n rounds. -/
theorem job_edges (s : State) (job : Job) (n : Nat) (hn : n ≤ 80) :
    State.microStep^[n + 1] (s.setSeq (.busy job .prepare)) =
      (State.roundStep^[n] ((s.setSeq (.busy job .prepare)).prepare job).load).setSeq (.busy job .rounds) := by
  induction n with
  | zero => simp [State.microStep]
  | succ n ih =>
    rw [Function.iterate_succ_apply', ih (by omega), Function.iterate_succ_apply']
    have := t_rounds ((s.setSeq (.busy job .prepare)).prepare job) n (by omega)
    simp only [State.microStep, setSeq_seq, setSeq_t, this, roundStep_setSeq]
    rw [if_pos (by omega)]

theorem job_busy (s : State) (job : Job) (k : Nat) (hk : k < 82) :
    (State.microStep^[k] (s.setSeq (.busy job .prepare))).busy = true := by
  cases k with
  | zero => rfl
  | succ n =>
    rw [job_edges s job n (by omega)]
    rfl

/-- The 82 busy edges of a compression: preparation, Compress and completion. -/
theorem job_done (s : State) (job : Job) :
    State.microStep^[82] (s.setSeq (.busy job .prepare)) =
      ((s.prepare job).compress.setSeq (.busy job .rounds)).complete job := by
  rw [show 82 = 81 + 1 from rfl, Function.iterate_succ_apply', show 81 = 80 + 1 from rfl, job_edges s job 80 (by omega)]
  have := t_rounds ((s.setSeq (.busy job .prepare)).prepare job) 80 (by omega)
  rw [← setSeq_setSeq (s.prepare job).compress (.busy job .prepare), ← compress_setSeq, ← prepare_setSeq, State.compress]
  generalize State.roundStep^[80] ((s.setSeq (.busy job .prepare)).prepare job).load = z at *
  have h80 : ¬ z.t.toNat < 80 := by omega
  simp only [State.microStep, setSeq_seq, setSeq_t, h80, if_false, fold_setSeq]

/-- An UPDATE that completes a block, after its 82 busy edges. -/
theorem beginBlock_done (s : State) (vs : List Byte) (hs : s.seq = .idle) (hp : s.pend = [])
    (h : 64 ≤ s.off + vs.length) (h2 : vs.length < 64) : State.microStep^[82] (s.beginBlock vs) = s.updateBytes vs := by
  rw [State.beginBlock, job_done, updateBytes_across s vs h h2]
  generalize hX : (s.counterAdd vs.length).setBuf (s.buf.writeBytes s.lanes s.off (vs.take (64 - s.off))) = x
  have hXs : x.seq = .idle := by rw [← hX]; simpa using hs
  have hXp : x.pend = [] := by rw [← hX]; simpa using hp
  have hXl : x.lanes = s.lanes := by rw [← hX]; simp
  have hXb : x.buf = s.buf.writeBytes s.lanes s.off (vs.take (64 - s.off)) := by rw [← hX]; simp
  have e : (x.setPend (vs.drop (64 - s.off))).prepare .updateBlock =
      (x.setBuf (s.fullBlock vs)).setPend (vs.drop (64 - s.off)) := by
    simp only [State.prepare, setPend_buf, setPend_lanes, hXl, hXb]
    rfl
  have e2 : (s.counterAdd vs.length).setBuf (s.fullBlock vs) = x.setBuf (s.fullBlock vs) := by rw [← hX]; rfl
  rw [e, compress_setPend, e2]
  generalize hY : (x.setBuf (s.fullBlock vs)).compress = y
  have hYs : y.seq = .idle := by rw [← hY]; simpa using hXs
  have hYp : y.pend = [] := by rw [← hY]; simpa using hXp
  have hYb : y.buf = scheduleTail (s.fullBlock vs).toList := by rw [← hY]; simp
  have hYl : y.lanes = s.lanes := by rw [← hY]; simp [hXl]
  simp only [State.complete, setSeq_buf, setPend_buf, setSeq_lanes, setPend_lanes, setSeq_pend, setPend_pend, hYb, hYl]
  cases y
  simp_all [State.setBuf, State.setPend, State.setSeq]

/-- A FINISH with OFF ≤ 55, after its 82 busy edges. -/
theorem finishOne_done (s : State) (hs : s.seq = .idle) (h : s.off ≤ 55) :
    State.microStep^[82] (s.setSeq (.busy .finishOne .prepare)) = s.finishContext := by
  have h5 : ¬ 56 ≤ s.off := by omega
  rw [job_done, State.prepare, State.complete, finalize_setSeq, setSeq_setSeq, State.finishContext, if_neg h5]
  exact setSeq_self _ (by simpa using hs)

/-- The first 82 busy edges of a FINISH with OFF ≥ 56. -/
theorem finishFirst_done (s : State) :
    State.microStep^[82] (s.setSeq (.busy .finishFirst .prepare)) =
      s.prepFirstBlock.compress.setSeq (.busy .finishLast .prepare) := by
  rw [job_done, State.prepare, State.complete, setSeq_setSeq]

/-- A FINISH with OFF ≥ 56, after its 164 busy edges. -/
theorem finishTwo_done (s : State) (hs : s.seq = .idle) (h : 56 ≤ s.off) :
    State.microStep^[164] (s.setSeq (.busy .finishFirst .prepare)) = s.finishContext := by
  rw [show 164 = 82 + 82 from rfl, Function.iterate_add_apply, finishFirst_done, job_done, State.prepare,
    State.complete, finalize_setSeq, setSeq_setSeq, State.finishContext, if_pos h]
  exact setSeq_self _ (by simpa using hs)

end Sys2Proof.Machine
end

