-- ==== Sys2Proof/Laws/PerInstr.lean ====
section
/-! SUPPORT. Per command: its word is in the match and mask row of its own mnemonic and in no other row (R76), and its
reserved bit is 0 (R77). -/

namespace Sys2Proof.Laws.EncodingRow

/-- The row of R76 with this command's mnemonic takes the command's word, no other row does, and RSV is 0. -/
def Statement (i : Instr) : Prop :=
  (∀ r ∈ opcodeRows, r.matchesWord (encode i) = decide (r.name = i.mnemonic)) ∧ rsvField (encode i) = false

theorem nop : Statement .nop := by
  unfold Statement
  decide

theorem start : Statement .start := by
  unfold Statement
  decide

theorem update (nb : BitVec 3) (data : Word) : Statement (.update nb data) := by
  have hrow : ∀ opc : BitVec 4,
      encode (.update nb data) &&& 0xF800000000 = opc ++ (0 : BitVec 36) ↔ (2 : BitVec 4) = opc := by
    intro opc
    rw [masked_eq_iff, encode, opcField_packWord, rsvField_packWord]
    exact and_iff_left (by decide)
  refine ⟨?_, by simp [encode]⟩
  simp [opcodeRows, OpcodeRow.matchesWord, Instr.mnemonic]
  exact ⟨fun h => absurd ((hrow 0).1 h) (by decide), fun h => absurd ((hrow 1).1 h) (by decide), (hrow 2).2 rfl,
    fun h => absurd ((hrow 3).1 h) (by decide)⟩

theorem finish : Statement .finish := by
  unfold Statement
  decide

end Sys2Proof.Laws.EncodingRow
end

