-- ==== Sys2Proof/Laws/Reference.lean ====
section
/-! SUPPORT. The blocks of a stream: chaining over a concatenation, and what a context has absorbed so far. -/

namespace Sys2Proof.Machine

theorem refBlocks_zero (h : HashRegs) (vs : List Byte) : refBlocks h 0 vs = h := by
  unfold refBlocks
  exact Eq.refl h

theorem refBlocks_succ (h : HashRegs) (n : Nat) (vs : List Byte) :
    refBlocks h (n + 1) vs = refBlocks (refCompress h (beWords (vs.take 64))) n (vs.drop 64) := by
  generalize hx : refBlocks h (n + 1) vs = x
  unfold refBlocks at hx
  exact hx.symm

theorem refBlocks_add (n m : Nat) : ∀ (h : HashRegs) (vs : List Byte),
    refBlocks h (n + m) vs = refBlocks (refBlocks h n vs) m (vs.drop (64 * n)) := by
  induction n with
  | zero =>
    intro h vs
    rw [refBlocks_zero, Nat.zero_add, Nat.mul_zero, List.drop_zero]
  | succ n ih =>
    intro h vs
    rw [show n + 1 + m = (n + m) + 1 by omega, refBlocks_succ, ih, refBlocks_succ, List.drop_drop,
      show 64 + 64 * n = 64 * (n + 1) by omega]

theorem refBlocks_append (n : Nat) : ∀ (h : HashRegs) (vs ws : List Byte), 64 * n ≤ vs.length →
    refBlocks h n (vs ++ ws) = refBlocks h n vs := by
  induction n with
  | zero =>
    intro h vs ws _
    rw [refBlocks_zero, refBlocks_zero]
  | succ n ih =>
    intro h vs ws hl
    rw [refBlocks_succ, refBlocks_succ, List.take_append_of_le_length (by omega),
      List.drop_append_of_le_length (by omega), ih _ _ _ (by rw [List.length_drop]; omega)]

/-- The context after START and the stream bytes `vs`: H is the chaining value of the whole blocks, the buffer holds the
rest, L counts them (R20, R21, R23). -/
def State.Absorbed (s : State) (vs : List Byte) : Prop :=
  s.h = refBlocks initialHash (vs.length / 64) vs ∧ s.validBytes = vs.drop (64 * (vs.length / 64)) ∧
    s.byteCount = BitVec.ofNat 64 vs.length ∧ s.phase = .active

theorem off_of_absorbed {s : State} {vs : List Byte} (h : s.Absorbed vs) : s.off = vs.length % 64 := by
  have := congrArg List.length h.2.1
  rw [length_validBytes, List.length_drop] at this
  omega

theorem absorbed_start (s : State) : s.startContext.Absorbed [] := by
  refine ⟨rfl, ?_, ?_, rfl⟩
  · simp [State.validBytes, State.off]
  · simp [State.byteCount]

theorem absorbed_updateBytes {s : State} {ps : List Byte} (vs : List Byte) (h : s.Absorbed ps) (hl : vs.length < 64) :
    (s.updateBytes vs).Absorbed (ps ++ vs) := by
  have ho := off_of_absorbed h
  obtain ⟨h1, h2, h3, h4⟩ := h
  refine ⟨?_, ?_, ?_, by rw [updateBytes_phase s vs hl, h4]⟩
  · by_cases hw : s.off + vs.length < 64
    · rw [h_within s vs hw, h1, List.length_append, show (ps.length + vs.length) / 64 = ps.length / 64 by omega,
        refBlocks_append _ _ _ _ (by omega)]
    · rw [h_across s vs (by omega) hl, h1, h2, List.length_append,
        show (ps.length + vs.length) / 64 = ps.length / 64 + 1 by omega, refBlocks_add,
        refBlocks_append _ _ _ _ (by omega), refBlocks_succ, refBlocks_zero, List.drop_append_of_le_length (by omega),
        List.take_append, List.length_drop,
        List.take_of_length_le (l := ps.drop (64 * (ps.length / 64))) (by rw [List.length_drop]; omega),
        show 64 - (ps.length - 64 * (ps.length / 64)) = 64 - s.off by omega]
  · by_cases hw : s.off + vs.length < 64
    · rw [validBytes_within s vs hw, h2, List.length_append,
        show (ps.length + vs.length) / 64 = ps.length / 64 by omega, List.drop_append_of_le_length (by omega)]
    · rw [validBytes_across s vs (by omega) hl, List.length_append,
        show (ps.length + vs.length) / 64 = ps.length / 64 + 1 by omega, List.drop_append,
        List.drop_of_length_le (l := ps) (by omega), List.nil_append]
      congr 1
      omega
  · rw [updateBytes_byteCount s vs hl, h3, List.length_append, BitVec.ofNat_add]

/-- FINISH after the stream bytes `vs` leaves the hash of the stream in H (R109 to R115). -/
theorem absorbed_finishContext {s : State} {vs : List Byte} (h : s.Absorbed vs) :
    s.finishContext.h = streamHash vs := by
  have ho := off_of_absorbed h
  obtain ⟨h1, h2, h3, h4⟩ := h
  have hbc : s.byteCount * 8 = BitVec.ofNat 64 (8 * vs.length) := by
    rw [h3, Nat.mul_comm, BitVec.ofNat_mul]
    rfl
  have h8 : ∀ x, (be64 x).length = 8 := fun x => rfl
  have hpl : (paddedStream vs).length = vs.length + 1 + (119 - vs.length % 64) % 64 + 8 := by
    simp [paddedStream, h8]
    omega
  have hsh : streamHash vs =
      refBlocks initialHash ((vs.length + 1 + (119 - vs.length % 64) % 64 + 8) / 64) (paddedStream vs) := by
    unfold streamHash
    rw [hpl]
  have hsplit : ∀ n, refBlocks initialHash (vs.length / 64 + n) (paddedStream vs) =
      refBlocks s.h n (s.validBytes ++ ((0x80 : Byte) :: List.replicate ((119 - vs.length % 64) % 64) 0) ++
        be64 (s.byteCount * 8)) := by
    intro n
    rw [refBlocks_add, h1, h2, hbc, paddedStream, List.append_assoc, refBlocks_append _ _ _ _ (by omega),
      List.drop_append_of_le_length (by omega), List.append_assoc]
  have hv := length_validBytes s
  unfold State.finishContext
  rw [hsh]
  clear hsh
  split_ifs with h56
  · rw [show (vs.length + 1 + (119 - vs.length % 64) % 64 + 8) / 64 = vs.length / 64 + 2 by omega, hsplit]
    have hb1 : s.prepFirstBlock.compress.byteCount = s.byteCount := by simp [State.byteCount]
    rw [finalize_h, compress_h, prepLastBlock_toList, prepLastBlock_h, compress_h, prepFirstBlock_toList s h56,
      prepFirstBlock_h, hb1]
    have hlist : s.validBytes ++ ((0x80 : Byte) :: List.replicate ((119 - vs.length % 64) % 64) 0) ++
          be64 (s.byteCount * 8) =
        (s.validBytes ++ ((0x80 : Byte) :: List.replicate (63 - s.off) 0)) ++
          (List.replicate 56 0 ++ be64 (s.byteCount * 8)) := by
      rw [show (119 - vs.length % 64) % 64 = (63 - s.off) + 56 by omega, List.replicate_add]
      simp only [List.append_assoc, List.cons_append]
    have hlen : (s.validBytes ++ ((0x80 : Byte) :: List.replicate (63 - s.off) 0)).length = 64 := by
      simp [hv]
      omega
    rw [hlist, refBlocks_succ, refBlocks_succ, refBlocks_zero, List.take_append_of_le_length (by omega),
      List.take_of_length_le (by omega), List.drop_append, List.drop_of_length_le (by omega), hlen, Nat.sub_self,
      List.drop_zero, List.nil_append, List.take_of_length_le (by simp [h8])]
  · rw [show (vs.length + 1 + (119 - vs.length % 64) % 64 + 8) / 64 = vs.length / 64 + 1 by omega, hsplit]
    rw [finalize_h, compress_h, prepOneBlock_toList s (by omega), prepOneBlock_h, refBlocks_succ, refBlocks_zero,
      List.take_of_length_le (by simp [h8, hv]; omega), show (119 - vs.length % 64) % 64 = 55 - s.off by omega]

end Sys2Proof.Machine
end

