-- ==== Sys2Proof/Laws/Safety.lean ====
section
/-! SUPPORT. Faulted runs and the digest of a run (R205), one step and one edge at a time. -/

namespace Sys2Proof.Machine

theorem faultedRun_step {s t : State} (h : step s = .next t) (n : Nat) :
    faultedRun (n + 1) s = (s.faulted || faultedRun n t) := by
  rw [faultedRun, h]

/-- A state that shows an error makes every run from it a faulted run. -/
theorem faultedRun_of_err {s : State} (h : s.err = true) (n : Nat) : faultedRun n s = true := by
  cases n <;> simp [faultedRun, State.faulted, h]

/-- More steps do not clear the fault. -/
theorem faultedRun_more (n m : Nat) : ∀ s, faultedRun n s = true → faultedRun (n + m) s = true := by
  induction n with
  | zero => intro s h; exact faultedRun_of_err h _
  | succ n ih =>
    intro s h
    rw [Nat.succ_add]
    simp only [faultedRun, Bool.or_eq_true] at h ⊢
    refine h.imp_right fun h => ?_
    split at h <;> simp_all

theorem digestOfRun_of_faulted {n : Nat} {s : State} (h : faultedRun n s = true) : digestOfRun n s = none := by
  rw [digestOfRun, if_pos h]

/-- The digest of a run that is not faulted and ends where the host may read it. -/
theorem digestOfRun_of_next {n : Nat} {s t : State} (hf : faultedRun n s = false)
    (hr : Host.Core.run Sys2Proof.core n s = .next t) (hd : t.digestReadable = true) :
    digestOfRun n s = some t.digest := by
  unfold digestOfRun
  rw [if_neg (by simp [hf]), hr]
  exact if_pos hd

theorem faultedEdges_of_err {s : State} (h : s.err = true) (ps : List PortIn) : faultedEdges ps s = true := by
  cases ps <;> simp [faultedEdges, State.faulted, h]

/-- More edges do not clear the fault. -/
theorem faultedEdges_more (ps qs : List PortIn) : ∀ s, faultedEdges ps s = true → faultedEdges (ps ++ qs) s = true := by
  induction ps with
  | nil => intro s h; exact faultedEdges_of_err h _
  | cons p ps ih =>
    intro s h
    simp only [List.cons_append, faultedEdges, Bool.or_eq_true] at h ⊢
    exact h.imp_right (ih _)

theorem digestOfEdges_of_faulted {ps : List PortIn} {s : State} (h : faultedEdges ps s = true) :
    digestOfEdges ps s = none := by
  rw [digestOfEdges, if_pos h]

end Sys2Proof.Machine
end

