-- ==== Sys2Proof/Laws/Text.lean ====
section
/-! SUPPORT. The assembler's text functions (R80): hexadecimal digits, blanks, comments and separators. -/

namespace Sys2Proof.Machine

/-- A hexadecimal digit is no blank and no separator, and reads as its value. -/
theorem hexDigit_spec : ∀ n, n < 16 →
    isBlank (hexDigit n) = false ∧ hexDigit n ≠ ';' ∧ hexDigit n ≠ '"' ∧ hexDigit n ≠ ',' ∧
      digitValue 16 (hexDigit n) = some n := by decide

theorem mem_hexText (k : Nat) : ∀ n c, c ∈ hexText k n → ∃ m, m < 16 ∧ c = hexDigit m := by
  induction k with
  | zero => intro n c h; simp [hexText] at h
  | succ k ih =>
    intro n c h
    simp only [hexText, List.mem_append, List.mem_singleton] at h
    rcases h with h | h
    · exact ih _ _ h
    · exact ⟨n % 16, by omega, h⟩

theorem length_hexText (k : Nat) : ∀ n, (hexText k n).length = k := by
  induction k with
  | zero => intro n; rfl
  | succ k ih => intro n; simp [hexText, ih]

theorem digitsValue_snoc (base v : Nat) (c : Char) (hv : digitValue base c = some v) (cs : List Char) :
    ∀ acc a, digitsValue base acc cs = some a → digitsValue base acc (cs ++ [c]) = some (a * base + v) := by
  induction cs with
  | nil =>
    intro acc a h
    simp only [digitsValue, Option.some.injEq] at h
    simp [digitsValue, hv, h]
  | cons d ds ih =>
    intro acc a h
    simp only [digitsValue, List.cons_append] at *
    cases hd : digitValue base d with
    | none => simp [hd] at h
    | some x =>
      simp only [hd] at h ⊢
      exact ih _ _ h

theorem digitsValue_hexText (k : Nat) : ∀ n, digitsValue 16 0 (hexText k n) = some (n % 16 ^ k) := by
  induction k with
  | zero => intro n; simp [hexText, digitsValue, Nat.mod_one]
  | succ k ih =>
    intro n
    rw [hexText, digitsValue_snoc 16 (n % 16) _ (hexDigit_spec _ (by omega)).2.2.2.2 _ 0 _ (ih _), Nat.pow_succ',
      Nat.mod_mul]
    congr 1
    omega

theorem stripComment_clean (cs : List Char) (h : ∀ c ∈ cs, c ≠ ';' ∧ c ≠ '"') : stripComment false cs = cs := by
  induction cs with
  | nil => rfl
  | cons c cs ih =>
    have := h c (by simp)
    simp [stripComment, this.1, this.2, ih (fun d hd => h d (by simp [hd]))]

theorem splitAtChar_clean (sep : Char) (cs : List Char) (h : ∀ c ∈ cs, c ≠ sep) : splitAtChar sep cs = [cs] := by
  induction cs with
  | nil => rfl
  | cons c cs ih => simp [splitAtChar, h c (by simp), ih (fun d hd => h d (by simp [hd]))]

/-- A text that begins with no blank and ends in hexadecimal digits has no blanks at its ends. -/
theorem trimBlanks_hexText (pre : List Char) (c : Char) (k n : Nat) (hc : isBlank c = false) :
    trimBlanks (c :: pre ++ hexText (k + 1) n) = c :: pre ++ hexText (k + 1) n := by
  have hd := (hexDigit_spec (n % 16) (by omega)).1
  have h1 : (c :: pre ++ hexText (k + 1) n).dropWhile isBlank = c :: pre ++ hexText (k + 1) n := by
    simp [hc]
  rw [trimBlanks, h1, show hexText (k + 1) n = hexText k (n / 16) ++ [hexDigit (n % 16)] from rfl]
  simp [hd]

end Sys2Proof.Machine
end

