-- ==== Sys2Proof/Tests/Slice0.lean ====
section
/-! SUPPORT. Tests. Every expected value comes from the spec: from a rule's own example or from a vector V<n> or program
P<n> of spec/95_test_vectors.md, named in each test's comment. The second half holds, for each obligation with
hypotheses, a concrete input that meets them. -/

namespace Sys2Proof.Tests

open Sys2Proof Sys2Proof.Machine

/-! ## Helpers -/

/-- The state a step answers. -/
def after (r : Host.Outcome State Fault Refusal) : Option State :=
  match r with
  | .next s => some s
  | .fault _ => none
  | .refused _ => none

/-- Reset, with the host about to present the word. -/
def presenting (w : CmdWord) : State := { State.reset with host := [present w] }

/-- FINISH has run (V1): PHASE = 1. -/
def finished : State := { State.reset with phase := .finalized }

/-- n bytes received, the buffer holding the given words. -/
def received (lanes : LaneOrder) (n : Nat) (words : List Word) : State :=
  { State.reset with lLo := BitVec.ofNat 32 n, buf := Vector.ofFn fun q => words.getD q.val 0xDEADBEEF, lanes := lanes }

/-- The words of the V4 message "abcdbcde…nopq" in the lane order LE. -/
def message56 : List Word :=
  [0x64636261, 0x65646362, 0x66656463, 0x67666564, 0x68676665, 0x69686766, 0x6A696867, 0x6B6A6968,
   0x6C6B6A69, 0x6D6C6B6A, 0x6E6D6C6B, 0x6F6E6D6C, 0x706F6E6D, 0x71706F6E]

/-- The words of the V12 stream before its last beat: bytes 00 to 3D, and two stale bytes. -/
def message62 : List Word :=
  [0x03020100, 0x07060504, 0x0B0A0908, 0x0F0E0D0C, 0x13121110, 0x17161514, 0x1B1A1918, 0x1F1E1D1C,
   0x23222120, 0x27262524, 0x2B2A2928, 0x2F2E2D2C, 0x33323130, 0x37363534, 0x3B3A3938, 0xDEAD3D3C]

/-! ## Well-formedness (R72) -/

theorem test_wf_refuses_five_bytes : (Instr.update 5 0).wellFormed = false := by decide
theorem test_wf_refuses_seven_bytes : (Instr.update 7 0x00636261).wellFormed = false := by decide
theorem test_wf_accepts_four_bytes : (Instr.update 4 0xFFFFFFFF).wellFormed = true := by decide
theorem test_wf_accepts_the_others :
    Instr.nop.wellFormed = true ∧ Instr.start.wellFormed = true ∧ Instr.finish.wellFormed = true := by decide

/-! ## Decoding: words written out from R76, as OPC, RSV, NB, DATA -/

theorem test_decode_nop : decode 0b0000000000000000000000000000000000000000 = .ok .nop := by decide
/-- V20: `0x0300001234 (NOP)`. -/
theorem test_decode_nop_ignored : decode 0b0000001100000000000000000001001000110100 = .ok .nop := by decide
theorem test_decode_start : decode 0b0001000000000000000000000000000000000000 = .ok .start := by decide
/-- V20: `0x17FFFFFFFF (START with NB = 7, DATA = 0xFFFFFFFF)`. -/
theorem test_decode_start_ignored : decode 0b0001011111111111111111111111111111111111 = .ok .start := by decide
/-- R81: `UPDATE 3, 0x00636261` = 0x2300636261. -/
theorem test_decode_update :
    decode 0b0010001100000000011000110110001001100001 = .ok (.update 3 0x00636261) := by decide
/-- P3: `UPDATE 4, 0x64636261` = 0x2464636261. -/
theorem test_decode_update_four :
    decode 0b0010010001100100011000110110001001100001 = .ok (.update 4 0x64636261) := by decide
theorem test_decode_finish : decode 0b0011000000000000000000000000000000000000 = .ok .finish := by decide
/-- V20: `0x34ABCDEF01 (FINISH with NB = 4)`. -/
theorem test_decode_finish_ignored : decode 0b0011010010101011110011011110111100000001 = .ok .finish := by decide
/-- V18, V19: each illegal encoding with its cause. -/
theorem test_decode_illegal :
    decode 0x4000000000 = .error .rsvdOpc ∧ decode 0xF123456789 = .error .rsvdOpc ∧
      decode 0x1800000000 = .error .rsvdBit ∧ decode 0x2F00000000 = .error .rsvdBit ∧
      decode 0x2511223344 = .error .rsvdNb ∧ decode 0x2600000000 = .error .rsvdNb ∧
      decode 0x2700000000 = .error .rsvdNb := by decide
theorem test_decode_table_word :
    decodeTableWord 40 0x2300636261 = some (.update 3 0x00636261) ∧ decodeTableWord 40 0x3000000000 = some .finish ∧
      decodeTableWord 40 0x1000000000 = some .start ∧ decodeTableWord 40 0 = some .nop ∧
      decodeTableWord 40 0x2500000000 = none := by decide
theorem test_fetch_word : (State.reset.withFetchWord 40 0x2300636261).host = [present 0x2300636261] := by decide

/-! ## Arithmetic, lanes and counters -/

/-- R140, R141. -/
theorem test_add_and_rotate :
    (0xFFFFFFFF : Word) + 1 = 0 ∧ (0x67452301 : Word) + 0xEFCDAB89 = 0x5712CE8A ∧ rotl 0x80000000 1 = 0x00000001 ∧
      rotl 0x67452301 5 = 0xE8A4602C ∧ rotl 0xEFCDAB89 30 = 0x7BF36AE2 := by decide
/-- R142, R143, R144. -/
theorem test_round_functions :
    ch 0xF0F0F0F0 0xCCCCCCCC 0xAAAAAAAA = 0xCACACACA ∧ parity 0xF0F0F0F0 0xCCCCCCCC 0xAAAAAAAA = 0x96969696 ∧
      maj 0xF0F0F0F0 0xCCCCCCCC 0xAAAAAAAA = 0xE8E8E8E8 := by decide
/-- V9. -/
theorem test_swap :
    bswap 0x12345678 = 0x78563412 ∧ normalize .le 0x00636261 = 0x61626300 ∧ normalize .be 0x61626300 = 0x61626300 := by
  decide
/-- V10. -/
theorem test_lanes :
    beatBytes .le 3 0x00636261 = [0x61, 0x62, 0x63] ∧ beatBytes .be 3 0x61626300 = [0x61, 0x62, 0x63] ∧
      beatBytes .le 3 0xFF636261 = [0x61, 0x62, 0x63] := by decide
/-- V16: a carry, the last sum without one, and the wrap of D21. -/
theorem test_counter :
    let count (hi lo : Word) (n : Nat) : Word × Word :=
      let t := ({ State.reset with lHi := hi, lLo := lo } : State).counterAdd n
      (t.lHi, t.lLo)
    count 0 0xFFFFFFFE 4 = (1, 2) ∧ count 0 0xFFFFFFFC 4 = (1, 0) ∧ count 0 0xFFFFFFFD 2 = (0, 0xFFFFFFFF) ∧
      count 0xFFFFFFFF 0xFFFFFFFF 1 = (0, 0) ∧ count 5 7 0 = (5, 7) := by decide
/-- V17. -/
theorem test_bit_length :
    let bits (hi lo : Word) : Word × Word :=
      (({ State.reset with lHi := hi, lLo := lo } : State).bitLenHi,
        ({ State.reset with lHi := hi, lLo := lo } : State).bitLenLo)
    bits 0 3 = (0, 0x18) ∧ bits 0 0x1FFFFFFF = (0, 0xFFFFFFF8) ∧ bits 0 0x20000000 = (1, 0) ∧ bits 1 1 = (8, 8) ∧
      bits 0x20000000 0 = (0, 0) ∧ bits 0xFFFFFFFF 0xFFFFFFFF = (0xFFFFFFFF, 0xFFFFFFF8) := by decide
/-- V13. -/
theorem test_pad_masks :
    keepMask 0 = 0 ∧ keepMask 3 = 0xFFFFFF00 ∧ padBit 0 = 0x80000000 ∧ padBit 3 = 0x00000080 := by decide

/-! ## The compression -/

/-- R150's worked round: round 0 of "abc". -/
theorem test_round_zero :
    (⟨0x67452301, 0xEFCDAB89, 0x98BADCFE, 0x10325476, 0xC3D2E1F0⟩ : WorkRegs).round 0 0x61626380 =
      ⟨0x0116FC33, 0x67452301, 0x7BF36AE2, 0x98BADCFE, 0x10325476⟩ := by decide
/-- R151: an all-zero block from the IV. -/
theorem test_compress_zero_block :
    State.reset.compress.h = ⟨0x92B404E5, 0x56588CED, 0x6C1ACD4E, 0xBF053F68, 0x09F73A93⟩ := by decide +kernel

/-! ## One step of each command -/

/-- R101: the NOP of V20, from reset, changes nothing. -/
theorem test_step_nop : after (step (presenting 0x0300001234)) = some State.reset := by decide
/-- R102: START after FINISH opens a new stream. -/
theorem test_step_start :
    after (step { finished with h := ⟨1, 2, 3, 4, 5⟩, lLo := 3, host := [present 0x17FFFFFFFF] }) = some State.reset := by
  decide
/-- V11, with the poison 0xDEADBEEF, under both lane orders. -/
theorem test_step_update :
    (after (step { received .le 0 [] with host := [present 0x2300636261] })).map
        (fun t => (t.lLo, t.off, t.buf.word 0)) = some (3, 3, 0xDE636261) ∧
      (after (step { received .be 0 [] with host := [present 0x2361626300] })).map
        (fun t => (t.lLo, t.off, t.buf.word 0)) = some (3, 3, 0x616263EF) := by decide
/-- V12: the beat that completes a block after two of its four bytes. -/
theorem test_step_update_block :
    (after (step { received .le 62 message62 with host := [present 0x2441403F3E] })).map
        (fun t => (t.h, t.lLo, t.buf.word 0)) =
      some (⟨0xB9AC757B, 0xBC297925, 0x2E227274, 0x06872F94, 0xCBEA56A1⟩, 66, 0xF80B4140) := by decide +kernel
/-- V2, V24: FINISH of "abc". -/
theorem test_step_finish :
    (after (step { received .le 3 [0xDE636261] with host := [present 0x34ABCDEF01] })).map
        (fun t => (t.digest, t.status, t.lLo, t.buf.word 0, t.buf.word 3)) =
      some (0xa9993e364706816aba3e25717850c26c9cd0d89d, 0x02, 3, 0x7CD45C9D, 0xEC6765E8) := by decide +kernel
/-- V4: the two-block FINISH. -/
theorem test_step_finish_two :
    (after (step { received .le 56 message56 with host := [present 0x3000000000] })).map
        (fun t => (t.digest, t.lLo)) = some (0x84983e441c3bd26ebaae4aa1f95129e5e54670f1, 56) := by decide +kernel
/-- V18: each command error from reset, and STATUS after it. -/
theorem test_step_errors :
    (after (step (presenting 0xF123456789))).map (fun t => (t.ecause, t.status)) = some (1, 0x0C) ∧
      (after (step (presenting 0x1800000000))).map (fun t => (t.ecause, t.status)) = some (2, 0x14) ∧
      (after (step (presenting 0x2511223344))).map (fun t => (t.ecause, t.status)) = some (3, 0x1C) := by decide
/-- V18, V19: UPDATE and FINISH after FINISH; the earlier cause wins; the first error is kept. -/
theorem test_step_sequence_error :
    (after (step { finished with host := [present 0x2100000061] })).map (fun t => (t.ecause, t.status)) =
        some (4, 0x26) ∧
      (after (step { finished with host := [present 0x3000000000] })).map (fun t => (t.ecause, t.status)) =
        some (4, 0x26) ∧
      (after (step { finished with host := [present 0x2F00000000] })).map (fun t => t.status) = some 0x16 ∧
      (after (step { finished with host := [present 0x2700000000] })).map (fun t => t.status) = some 0x1E ∧
      (after (step { presenting 0x2600000000 with err := true, ecause := 1 })).map (fun t => t.status) = some 0x0C := by
  decide
/-- V23. -/
theorem test_reset_outputs :
    State.reset.status = 0x00 ∧ State.reset.cmdReady false = true ∧ State.reset.cmdReady true = false ∧
      State.reset.digest = 0x67452301EFCDAB8998BADCFE10325476C3D2E1F0 := by decide
/-- R229: FINISH of an empty stream is busy for 82 cycles, an accepted NOP for none. -/
theorem test_busy_cycles :
    State.reset.busyCycles .finish = 82 ∧ (received .le 56 []).busyCycles .finish = 164 ∧
      (received .le 62 []).busyCycles (.update 4 0) = 82 ∧ (received .le 62 []).busyCycles (.update 1 0) = 0 ∧
      State.reset.busyCycles .nop = 0 := by decide

/-- R205, R227: the digest of the FINISH of V2, none before it, and none of the same run after an error. -/
theorem test_digest_of_run :
    digestOfRun 1 { received .le 3 [0xDE636261] with host := [present 0x3000000000] } =
        some 0xa9993e364706816aba3e25717850c26c9cd0d89d ∧
      digestOfRun 0 State.reset = none ∧
      digestOfRun 1 { received .le 3 [0xDE636261] with host := [present 0x3000000000], err := true, ecause := 1 } =
        none := by decide +kernel

/-! ## The assembler (R80 to R83) -/

/-- P1's text with its words, a blank line, a comment, another case and `.cmd`. -/
theorem test_assemble_text :
    assembleText .le
        (['S', 'T', 'A', 'R', 'T', ' ', ';', ' ', 'x', '\n', 'u', 'p', 'd', 'a', 't', 'e', ' ', '3', ',', ' ', '0', 'x',
          '0', '0', '6', '3', '6', '2', '6', '1', '\n', '\n'] ++
         ['F', 'i', 'n', 'i', 's', 'h', '\n', '.', 'c', 'm', 'd', ' ', '0', 'x', 'F', '1', '2', '3', '4', '5', '6', '7',
          '8', '9']) =
      some [0x1000000000, 0x2300636261, 0x3000000000, 0xF123456789] := by decide
/-- R82's example, R83's HASH, and an operand out of range. -/
theorem test_assemble_pseudo :
    assembleLine .le ['U', 'P', 'D', 'A', 'T', 'E', '.', 'B', ' ', '0', 'x', '6', '1', ',', ' ', '9', '8'] =
        some [0x2200006261] ∧
      assembleLine .le ['H', 'A', 'S', 'H', ' ', '"', 'a', 'b', 'c', '"'] =
        some [0x1000000000, 0x2300636261, 0x3000000000] ∧
      assembleLine .le ['F', 'E', 'E', 'D', ' ', '"', '"'] = some [] ∧
      assembleLine .le ['U', 'P', 'D', 'A', 'T', 'E', ' ', '5', ',', ' ', '0'] = none := by decide

/-! ## Witnesses of the obligations' hypotheses -/

theorem witness_DecodeAndEncodeAgree :
    (Instr.update 4 0xFFFFFFFF).wellFormed = true ∧ decode 0x24FFFFFFFF = .ok (.update 4 0xFFFFFFFF) ∧
      decode 0x34ABCDEF01 = .ok .finish := by decide

/-- NB = 4 and NB = 5, the two sides of the bound; each row; a word of no row. -/
theorem witness_DecodeFollowsMatchAndMaskRows :
    (0x0700000001 : CmdWord) &&& 0xF800000000 = 0x0000000000 ∧ (0x1700000000 : CmdWord) &&& 0xF800000000 = 0x1000000000 ∧
      (0x3700000000 : CmdWord) &&& 0xF800000000 = 0x3000000000 ∧ (0x2400000000 : CmdWord) &&& 0xF800000000 = 0x2000000000 ∧
      (nbField 0x2400000000).toNat = 4 ∧ (nbField 0x2500000000).toNat = 5 ∧
      (opcodeRows.all fun r => !r.matchesWord 0x4000000000) = true := by decide

theorem witness_IllegalEncodingsAndTheirCauses :
    4 ≤ (opcField 0x4000000000).toNat ∧ ((opcField 0x3800000000).toNat < 4 ∧ rsvField 0x3800000000 = true) ∧
      (opcField 0x2500000000 = 2 ∧ rsvField 0x2500000000 = false ∧ 4 < (nbField 0x2500000000).toNat) := by decide

theorem witness_IgnoredFieldsAcceptAnyValue : (3 : BitVec 4).toNat < 4 := by decide

/-- One byte, four bytes; none and five, for the refused forms; the last unused lane. -/
theorem witness_UpdateByteFormCarriesItsBytes :
    (1 ≤ [(0x61 : Byte)].length ∧ [(0x61 : Byte)].length ≤ 4) ∧
      (1 ≤ [(1 : Byte), 2, 3, 4].length ∧ [(1 : Byte), 2, 3, 4].length ≤ 4) ∧
      ¬(1 ≤ ([] : List Byte).length ∧ ([] : List Byte).length ≤ 4) ∧
      ¬(1 ≤ [(1 : Byte), 2, 3, 4, 5].length ∧ [(1 : Byte), 2, 3, 4, 5].length ≤ 4) ∧
      ([(0x61 : Byte)].length ≤ 3 ∧ 3 < 4) := by decide

/-- The beat before the last of five bytes. -/
theorem witness_FeedCutsBytesIntoBeatsOfFour : 0 + 1 < (feedBeats [1, 2, 3, 4, 5]).length := by decide

theorem witness_StepRunsTheDecodedCommand :
    let s := presenting 0x2300636261
    s.seq = .idle ∧ s.host = present 0x2300636261 :: [] ∧ (present 0x2300636261).rst = false ∧
      (present 0x2300636261).cmdValid = true ∧ decode (present 0x2300636261).cmd = .ok (.update 3 0x00636261) := by
  decide

/-- A decode error, and E_SEQ of FINISH and of UPDATE. -/
theorem witness_ErroneousWordWritesOnlyErrAndEcause :
    ((presenting 0x4000000000).seq = .idle ∧ (presenting 0x4000000000).host = present 0x4000000000 :: [] ∧
        decode (present 0x4000000000).cmd = .error .rsvdOpc) ∧
      (finished.seq = .idle ∧ finished.phase = .finalized ∧ decode (present 0x3000000000).cmd = .ok .finish ∧
        decode (present 0x2100000062).cmd = .ok (.update 1 0x62)) := by decide

/-- The five clauses, each at a word on its boundary; V19's words are the second and the third in PHASE 1. -/
theorem witness_FirstCauseInPriorityOrderIsReported :
    4 ≤ (opcField 0x4F00000000).toNat ∧ ((opcField 0x2F00000000).toNat < 4 ∧ rsvField 0x2F00000000 = true) ∧
      (opcField 0x2500000000 = 2 ∧ rsvField 0x2500000000 = false ∧ 4 < (nbField 0x2500000000).toNat) ∧
      (opcField 0x2400000000 = 2 ∧ rsvField 0x2400000000 = false ∧ (nbField 0x2400000000).toNat ≤ 4 ∧
        finished.phase = .finalized) ∧
      (opcField 0x3700000000 = 3 ∧ rsvField 0x3700000000 = false) := by decide

theorem witness_ErrIsStickyAndCommandsStillRun :
    let s := { presenting 0x2600000000 with err := true, ecause := 1 }
    let r : PortIn := ⟨true, true, 0⟩
    (s.err = true ∧ (∀ p ∈ s.host.head?, p.rst = false) ∧ (after (step s)).isSome = true) ∧ r.rst = true ∧
      (Instr.finish.wellFormed = true ∧ State.reset.phase = .active) ∧
      (Instr.start.wellFormed = true ∧ finished.phase = .finalized) := by decide

theorem witness_UpdateAndFinishRaiseSequenceErrorWhenFinalized :
    finished.phase = .finalized ∧ (4 : BitVec 3).toNat ≤ 4 := by decide

theorem witness_ResetWinsOverEverything :
    let p : PortIn := ⟨true, true, 0x3000000000⟩
    let s := { State.reset with host := [p], seq := .busy .finishOne .rounds }
    p.rst = true ∧ s.host = p :: [] := by decide

/-- Ready with a word, ready without one, and not ready. -/
theorem witness_WordIsAcceptedExactlyWhenReady :
    let s := { presenting 0x1000000000 with seq := .busy .finishOne .rounds }
    let p := present 0x1000000000
    (p.rst = false ∧ p.cmdValid = true ∧ State.reset.cmdReady p.rst = true) ∧
      ((⟨false, false, 0⟩ : PortIn).cmdValid = false ∧ State.reset.cmdReady false = true) ∧
      (p.rst = false ∧ s.cmdReady p.rst = false ∧ s.host = p :: []) := by decide

theorem witness_LaneOrderNeverChanges : (after (step (presenting 0x1000000000))).isSome = true := by decide

theorem witness_StartBeginsANewHash :
    finished.Inv ∧ finished.seq = .idle ∧ finished.err = false := by decide

/-- The largest sum without a carry, and the smallest with one. -/
theorem witness_UpdateAddsItsByteCountWithCarry :
    let s := { State.reset with lLo := 0xFFFFFFFB }
    let t := { State.reset with lLo := 0xFFFFFFFC }
    s.phase = .active ∧ (4 : BitVec 3).toNat ≤ 4 ∧ s.lLo.toNat + (4 : BitVec 3).toNat < 2 ^ 32 ∧ t.phase = .active ∧
      2 ^ 32 ≤ t.lLo.toNat + (4 : BitVec 3).toNat := by decide

/-- A full beat up to offset 62: its last byte, the byte before it and the byte after it. -/
theorem witness_UpdateDepositsItsBytesAtTheFillOffset :
    let s := received .le 59 []
    s.phase = .active ∧ (4 : BitVec 3).toNat ≤ 4 ∧ s.off + (4 : BitVec 3).toNat < 64 ∧ 3 < (4 : BitVec 3).toNat ∧
      58 < s.off ∧ s.off + (4 : BitVec 3).toNat ≤ 63 := by decide

/-- No byte left over, and three: the last of them, and the one lane that keeps W_64. -/
theorem witness_UpdateCompletingABlockCompressesIt :
    let s := received .le 60 []
    let t := received .le 63 []
    (s.phase = .active ∧ (4 : BitVec 3).toNat ≤ 4 ∧ 64 ≤ s.off + (4 : BitVec 3).toNat ∧
        s.off + (4 : BitVec 3).toNat - 64 ≤ 0) ∧
      (t.phase = .active ∧ 64 ≤ t.off + (4 : BitVec 3).toNat ∧ 2 < t.off + (4 : BitVec 3).toNat - 64 ∧
        t.off + (4 : BitVec 3).toNat - 64 ≤ 3) := by decide

theorem witness_EmptyUpdateChangesNothing : State.reset.phase = .active := by decide

theorem witness_ReservedByteCountRaisesAnError : 4 < (5 : BitVec 3).toNat := by decide

theorem witness_UnusedLanesHaveNoEffect :
    State.reset.phase = .active ∧ (3 : BitVec 3).toNat ≤ 4 ∧
      ∀ k, k < (3 : BitVec 3).toNat → laneByte .le 0x00636261 k = laneByte .le 0xFF636261 k := by decide

/-- V20: "abc" as one, nothing and two bytes, and as three. -/
theorem witness_StreamingInvariant :
    let beats : List (List Byte) := [[0x61], [], [0x62, 0x63]]
    let beats' : List (List Byte) := [[0x61, 0x62, 0x63]]
    State.reset.phase = .active ∧ (∀ beat ∈ beats, beat.length ≤ 4) ∧ (∀ beat ∈ beats', beat.length ≤ 4) ∧
      beats.flatten = beats'.flatten := by decide

theorem witness_PaddingBitFollowsTheLastValidByte : 63 < 64 ∧ 14 < 63 / 4 ∧ (55 / 4 < 14 ∧ 14 < 16) := by decide

theorem witness_LengthWordsHoldTheBitCount : 13 < 14 := by decide

/-- OFF = 55, the largest, and OFF = 0. -/
theorem witness_FinishOfAShortBlockCompressesOnce :
    ((received .le 55 []).phase = .active ∧ (received .le 55 []).off ≤ 55) ∧ State.reset.off = 0 := by decide

/-- OFF = 56, the smallest, and OFF = 63. -/
theorem witness_FinishOfALongBlockCompressesTwice :
    ((received .le 56 []).phase = .active ∧ 56 ≤ (received .le 56 []).off) ∧ (received .le 63 []).off = 63 := by decide

theorem witness_WindowCompressionIsTheFullExpansion : 79 < 80 ∧ 15 < 16 := by decide

theorem witness_OptimizedRoundFunctionsAgree : 31 < 32 := by decide

theorem witness_RotationAndAdditionAreModular : 31 < 32 ∧ 1 ≤ 31 := by decide

/-- T at both ends of each of the four stages. -/
theorem witness_LoadAndRoundFollowTheirFormulas :
    let s (t : BitVec 7) : State := { State.reset with t := t }
    (s 0).t.toNat = 0 ∧ (s 19).t.toNat = 19 ∧ (s 20).t.toNat = 20 ∧ (s 39).t.toNat = 39 ∧ (s 40).t.toNat = 40 ∧
      (s 59).t.toNat = 59 ∧ (s 60).t.toNat = 60 ∧ (s 79).t.toNat = 79 ∧ (s 79).t.toNat < 80 := by decide

/-- The last t without a write, the first and the last with one, each with another slot. -/
theorem witness_ScheduleWritesOneSlotOfTheWindow :
    15 < 16 ∧ (16 ≤ 16 ∧ 1 < 16 ∧ 1 ≠ 16 % 16) ∧ (79 < 80 ∧ 16 ≤ 79 ∧ 14 < 16 ∧ 14 ≠ 79 % 16) := by decide

theorem witness_SwapReversesTheBytesOfAWord : 3 < 4 := by decide

theorem witness_NormalizedWordsAreInInternalOrder : 15 < 16 ∧ 3 < 4 := by decide

theorem witness_BufWriteByteWritesOneByte : 63 < 64 := by decide

theorem witness_DigestBytesAreBigEndian : 19 < 20 := by decide

/-- An accepted START, a FOLD, and an edge that changes H. -/
theorem witness_HashWordsChangeOnlyAtFoldAndStart :
    let s := { finished with h := ⟨1, 2, 3, 4, 5⟩ }
    let t := { State.reset with seq := .busy .finishOne .rounds, t := 80, work := ⟨1, 0, 0, 0, 0⟩ }
    let p := present 0x1000000000
    (p.rst = false ∧ s.seq = .idle ∧ p.cmdValid = true ∧ decode p.cmd = .ok .start ∧ (clockEdge p s).h ≠ s.h) ∧
      (t.seq = .busy .finishOne .rounds ∧ 80 ≤ t.t.toNat ∧ (clockEdge p t).h ≠ t.h) := by decide

/-- A FINISH presented after FINISH, and nothing presented. -/
theorem witness_DigestIsImmutableUntilStartOrReset :
    let s := { finished with host := [present 0x3000000000] }
    (s.phase = .finalized ∧ s.seq = .idle ∧
        ∀ p ∈ s.host.head?, p.rst = false ∧ (p.cmdValid = true → decode p.cmd ≠ .ok .start)) ∧
      ∀ p ∈ finished.host.head?, p.rst = false ∧ (p.cmdValid = true → decode p.cmd ≠ .ok .start) := by decide

/-- V11: the same three bytes under LE and BE, beside other stale bytes, A..E and T. -/
theorem witness_StaleContentsAndLaneOrderNeverReachTheDigest :
    let s := received .le 3 [0xDE636261]
    let t := { received .be 3 [0x61626300] with work := ⟨1, 2, 3, 4, 5⟩, t := 80 }
    s.SameContext t ∧ s.buf ≠ t.buf ∧ [(1 : Byte), 2, 3, 4].length ≤ 4 := by decide

/-- A word without busy cycles, a beat that completes a block, and a two-block FINISH. -/
theorem witness_ClockLevelAgreesWithCommandLevel :
    let quiet : PortIn := ⟨false, false, 0⟩
    State.reset.seq = .idle ∧ State.reset.pend = [] ∧ ([] : List PortIn).length = State.reset.wordBusyCycles 0 ∧
      (∀ p ∈ List.replicate 82 quiet, p.rst = false) ∧
      (List.replicate 82 quiet).length = (received .le 60 []).wordBusyCycles 0x2400000000 ∧
      (List.replicate 164 quiet).length = (received .le 56 []).wordBusyCycles 0x3000000000 := by decide

/-- An edge from BUSY to BUSY, and the accepting edges of FINISH and of an UPDATE that completes a block. -/
theorem witness_StatusKeepsItsFieldsWhileBusy :
    let s := { State.reset with seq := .busy .finishOne .rounds, t := 79 }
    let p := present 0x1000000000
    (p.rst = false ∧ s.busy = true ∧ (clockEdge p s).busy = true) ∧
      (State.reset.busy = false ∧ (clockEdge (present 0x3000000000) State.reset).busy = true) ∧
      ((received .le 62 []).busy = false ∧ (clockEdge (present 0x2400000000) (received .le 62 [])).busy = true) := by
  decide

/-- A step from IDLE, and a step inside a job with pending bytes. -/
theorem witness_StepKeepsTheInvariant :
    let s := { received .le 67 [] with seq := .busy .updateBlock .rounds, t := 80, pend := [1, 2, 3] }
    ((presenting 0x3000000000).Inv ∧ (presenting 0x4000000000).Inv) ∧ s.Inv ∧ (after (step s)).isSome = true := by decide

theorem witness_ClockEdgeKeepsTheInvariant :
    { received .le 56 [] with seq := .busy .finishLast .rounds, t := 79 }.Inv ∧
      { received .le 55 [] with seq := .busy .finishOne .prepare }.Inv := by decide

theorem witness_ProgramDigestIsTheStreamHash :
    let beats : List (List Byte) := [[0x61], [], [0x62, 0x63]]
    finished.seq = .idle ∧ finished.faulted = false ∧ ∀ beat ∈ beats, beat.length ≤ 4 := by decide

/-- R205: a reserved opcode and then a reset, which clears ERR: the run stays faulted and has no digest. -/
theorem witness_FaultedRunHasNoDigest :
    let p := present 0x4000000000
    let r : PortIn := ⟨true, false, 0⟩
    let s : State := { State.reset with host := [p, r] }
    faultedRun 1 s = true ∧ ((after (step s)).bind fun t => after (step t)).map (fun t => t.err) = some false ∧
      digestOfRun 2 s = none ∧ faultedEdges [p] State.reset = true ∧ (clockRun [p, r] State.reset).err = false := by
  decide

end Sys2Proof.Tests
end

section
/-! PROOFS. The obligation of spec/00_scope.md: LANE_ORDER is fixed for an instance (R8, R56). -/

namespace Sys2Proof.Machine

/-- R222's reset values leave the parameter LANE_ORDER out (log entry 1). -/
@[simp] theorem resetEdge_lanes (s : State) : s.resetEdge.lanes = s.lanes := (rfl)

theorem accept_keeps_lanes {w : CmdWord} {s t : State} (h : accept w s = .next t) : t.lanes = s.lanes := by
  obtain ⟨u, hu, hlanes⟩ := accept_frame (fun s => s.lanes) startContext_lanes raiseCmdError_lanes counterAdd_lanes
    setBuf_lanes compress_lanes finalize_lanes w s
  obtain rfl : u = t := by simpa [hu] using h
  exact hlanes

/-- Settles O18, by what a step can do: a reset edge, an accepted word, an edge without a word, or a micro-step. -/
theorem laneOrderNeverChanges : Obligations.LaneOrderNeverChanges := by
  intro s t h
  rcases step_cases s with ⟨_, rest, _, _, hreset⟩ | ⟨_, rest, _, _, _, _, haccept⟩ | ⟨_, rest, _, _, _, _, hwait⟩ |
    ⟨_, hmicro⟩
  · cases hreset.symm.trans h
    rw [resetEdge_lanes, setHost_lanes]
  · rw [accept_keeps_lanes (haccept.symm.trans h), setHost_lanes]
  · cases hwait.symm.trans h
    exact setHost_lanes s rest
  · cases hmicro.symm.trans h
    exact microStep_lanes s

end Sys2Proof.Machine
end

section
/-! PROOFS. The obligations of spec/10_state.md: the invariant of ECAUSE, T, PEND and SEQ under both levels (R26, R30 to
R32), the two edges that write H0..H4 (R20), E_SEQ while FINALIZED (R28), and STATUS (R33). -/

namespace Sys2Proof.Machine

/-! ## What a clock edge can do -/

/-- Everything that a clock edge can do: a reset, accepting the presented word, waiting in IDLE, or a micro-step. -/
theorem clockEdge_cases (p : PortIn) (s : State) :
    (p.rst = true ∧ clockEdge p s = s.resetEdge) ∨
      (p.rst = false ∧ s.seq = .idle ∧ p.cmdValid = true ∧ clockEdge p s = s.beginWord p.cmd) ∨
      (p.rst = false ∧ s.seq = .idle ∧ p.cmdValid = false ∧ clockEdge p s = s) ∨
      (p.rst = false ∧ s.seq ≠ .idle ∧ clockEdge p s = s.microStep) := by
  unfold clockEdge
  split_ifs with h1 h2 h3
  · exact .inl ⟨h1, rfl⟩
  · exact .inr (.inl ⟨by simpa using h1, seq_idle_of_cmdReady h2, h3, rfl⟩)
  · exact .inr (.inr (.inl ⟨by simpa using h1, seq_idle_of_cmdReady h2, by simpa using h3, rfl⟩))
  · refine .inr (.inr (.inr ⟨by simpa using h1, fun hq => h2 ?_, rfl⟩))
    simp [State.cmdReady, State.busy, hq, h1]

/-- Everything that the accepting edge of a word can do: nothing, START, a command error, the first edge of a beat, or
the first edge of FINISH (R100, R229). -/
theorem beginWord_cases (w : CmdWord) (s : State) :
    (s.beginWord w = s ∧ decode w = .ok .nop) ∨
      (s.beginWord w = s.startContext ∧ decode w = .ok .start) ∨
      (∃ c, s.beginWord w = s.raiseCmdError c) ∨
      (∃ nb data, decode w = .ok (.update nb data) ∧ nb.toNat ≤ 4 ∧ s.phase = .active ∧
        s.beginWord w = s.beginUpdate (beatBytes s.lanes nb.toNat data)) ∨
      (decode w = .ok .finish ∧ s.phase = .active ∧ s.beginWord w = s.beginFinish) := by
  unfold State.beginWord
  cases hd : decode w with
  | error c => exact .inr (.inr (.inl ⟨c, rfl⟩))
  | ok i =>
    cases i with
    | nop => exact .inl ⟨rfl, rfl⟩
    | start => exact .inr (.inl ⟨rfl, rfl⟩)
    | update nb data =>
      by_cases hn : 4 < nb.toNat
      · exact .inr (.inr (.inl ⟨.rsvdNb, by simp [State.beginInstr, hn]⟩))
      · cases hp : s.phase with
        | finalized => exact .inr (.inr (.inl ⟨.seq, by simp [State.beginInstr, hn, hp]⟩))
        | active =>
          exact .inr (.inr (.inr (.inl ⟨nb, data, rfl, by omega, rfl, by simp [State.beginInstr, hn, hp]⟩)))
    | finish =>
      cases hp : s.phase with
      | finalized => exact .inr (.inr (.inl ⟨.seq, by simp [State.beginInstr, hp]⟩))
      | active => exact .inr (.inr (.inr (.inr ⟨rfl, rfl, by simp [State.beginInstr, hp]⟩)))

/-- Everything that a micro-step can do: nothing in IDLE, the preparing edge of a job, a round, or FOLD with what ends
the job (R229). -/
theorem microStep_cases (s : State) :
    (s.seq = .idle ∧ s.microStep = s) ∨
      (∃ job, s.seq = .busy job .prepare ∧ s.microStep = (s.prepare job).load.setSeq (.busy job .rounds)) ∨
      (∃ job, s.seq = .busy job .rounds ∧ s.t.toNat < 80 ∧ s.microStep = s.roundStep) ∨
      (∃ job, s.seq = .busy job .rounds ∧ 80 ≤ s.t.toNat ∧ s.microStep = s.fold.complete job) := by
  unfold State.microStep
  split
  next hq => exact .inl ⟨hq, rfl⟩
  next job hq => exact .inr (.inl ⟨job, hq, rfl⟩)
  next job hq =>
    split_ifs with ht
    · exact .inr (.inr (.inl ⟨job, hq, ht, rfl⟩))
    · exact .inr (.inr (.inr ⟨job, hq, by omega, rfl⟩))

/-! ## What SEQ implies -/

/-- What a job of the sequencer asks of PEND and OFF (R32, R112), the same in both of its stages. -/
def State.fitsJob (s : State) : Job → Prop
  | .updateBlock => s.pend.length ≤ 3 ∧ s.off = s.pend.length
  | .finishOne => s.pend = [] ∧ s.off ≤ 55
  | .finishFirst => s.pend = [] ∧ 56 ≤ s.off
  | .finishLast => s.pend = [] ∧ 56 ≤ s.off

theorem seqInv_of_idle {s : State} (hq : s.seq = .idle) : s.seqInv = true ↔ s.pend = [] := by
  simp [State.seqInv, hq]

theorem seqInv_of_busy {s : State} {job : Job} {stage : Stage} (hq : s.seq = .busy job stage) :
    s.seqInv = true ↔ s.phase = .active ∧ s.fitsJob job := by
  cases job <;> simp [State.seqInv, State.fitsJob, hq]

theorem fitsJob_congr {s t : State} (hp : t.pend = s.pend) (ho : t.off = s.off) (job : Job) :
    t.fitsJob job ↔ s.fitsJob job := by
  cases job <;> simp only [State.fitsJob, hp, ho]

/-- A busy state fits its job when it agrees on PHASE, PEND and OFF with one that does. -/
theorem seqInv_busy_of_agree {s t : State} {job : Job} {stage stage' : Stage} (hs : s.seqInv = true)
    (hq : s.seq = .busy job stage) (hq' : t.seq = .busy job stage') (hph : t.phase = s.phase)
    (hp : t.pend = s.pend) (ho : t.off = s.off) : t.seqInv = true := by
  obtain ⟨hactive, hfits⟩ := (seqInv_of_busy hq).1 hs
  exact (seqInv_of_busy hq').2 ⟨hph.trans hactive, (fitsJob_congr hp ho job).2 hfits⟩

/-! ## The invariant under the named updates -/

/-- What does not write ERR and ECAUSE keeps the invariant when it keeps its parts on T and SEQ. -/
theorem inv_of_err_kept {s t : State} (h : s.Inv) (herr : t.err = s.err) (hcause : t.ecause = s.ecause)
    (ht : t.t.toNat ≤ 80) (hseq : t.seqInv = true) : t.Inv := by
  obtain ⟨hiff, hle, _, _⟩ := h
  exact ⟨by rw [herr, hcause]; exact hiff, by rw [hcause]; exact hle, ht, hseq⟩

theorem inv_setHost {s : State} (h : s.Inv) (ps : List PortIn) : (s.setHost ps).Inv := h

theorem inv_resetEdge (s : State) : s.resetEdge.Inv := by
  refine ⟨?_, ?_, ?_, rfl⟩ <;> simp [State.resetEdge, State.reset]

theorem code_ne_zero (c : CmdCause) : ¬ c.code = 0 := by cases c <;> decide

theorem code_le_four (c : CmdCause) : c.code.toNat ≤ 4 := by cases c <;> decide

/-- R202: ECAUSE takes one of R201's codes, or keeps the one that it holds while ERR = 1. -/
theorem inv_raiseCmdError {s : State} (h : s.Inv) (c : CmdCause) : (s.raiseCmdError c).Inv := by
  obtain ⟨hiff, hle, ht, hseq⟩ := h
  refine ⟨?_, ?_, ht, hseq⟩ <;> rw [raiseCmdError_ecause]
  · rw [raiseCmdError_err]
    refine iff_of_false (by decide) ?_
    split_ifs with herr
    · exact fun hzero => Bool.false_ne_true ((hiff.2 hzero).symm.trans herr)
    · exact code_ne_zero c
  · split_ifs
    · exact hle
    · exact code_le_four c

theorem inv_startContext {s : State} (h : s.Inv) (hq : s.seq = .idle) : s.startContext.Inv := by
  have ⟨_, _, ht, hseq⟩ := h
  have hpend : s.startContext.pend = [] := (seqInv_of_idle hq).1 hseq
  exact inv_of_err_kept h rfl rfl ht ((seqInv_of_idle (s := s.startContext) hq).2 hpend)

theorem inv_updateBytes {s : State} (h : s.Inv) (hq : s.seq = .idle) (vs : List Byte) (hl : vs.length < 64) :
    (s.updateBytes vs).Inv := by
  have ⟨_, _, ht, hseq⟩ := h
  have ht' : (s.updateBytes vs).t.toNat ≤ 80 := by
    rcases updateBytes_t s vs hl with e | e <;> rw [e]
    · exact ht
    · decide
  have hq' : (s.updateBytes vs).seq = .idle := (updateBytes_seq s vs hl).trans hq
  refine inv_of_err_kept h (updateBytes_err s vs hl) (updateBytes_ecause s vs hl) ht' ((seqInv_of_idle hq').2 ?_)
  rw [updateBytes_pend s vs hl, (seqInv_of_idle hq).1 hseq]

theorem inv_finishContext {s : State} (h : s.Inv) (hq : s.seq = .idle) : s.finishContext.Inv := by
  have ⟨_, _, _, hseq⟩ := h
  have hq' : s.finishContext.seq = .idle := (finishContext_seq s).trans hq
  refine inv_of_err_kept h (finishContext_err s) (finishContext_ecause s) (by simp) ((seqInv_of_idle hq').2 ?_)
  rw [finishContext_pend, (seqInv_of_idle hq).1 hseq]

/-- The invariant from the accepting edge on: after a beat that completes a block, OFF counts the bytes left over, which
wait in PEND (R107). -/
theorem inv_beginBlock {s : State} (h : s.Inv) (hph : s.phase = .active) (vs : List Byte) (hl : vs.length ≤ 4)
    (hfull : 64 ≤ s.off + vs.length) : (s.beginBlock vs).Inv := by
  have ⟨_, _, ht, _⟩ := h
  have hoff : (s.beginBlock vs).off = (s.off + vs.length) % 64 := off_counterAdd s vs.length (by omega)
  have hpend : (s.beginBlock vs).pend.length = vs.length - (64 - s.off) := List.length_drop
  have hlt := off_lt s
  have hfits : (s.beginBlock vs).fitsJob .updateBlock := ⟨by omega, by omega⟩
  exact inv_of_err_kept h rfl rfl ht ((seqInv_of_busy rfl).2 ⟨hph, hfits⟩)

theorem inv_beginUpdate {s : State} (h : s.Inv) (hq : s.seq = .idle) (hph : s.phase = .active) (vs : List Byte)
    (hl : vs.length ≤ 4) : (s.beginUpdate vs).Inv := by
  unfold State.beginUpdate
  split_ifs with hw
  · exact inv_updateBytes h hq vs (by omega)
  · exact inv_beginBlock h hph vs hl (by omega)

/-- FINISH enters the job on OFF's side of the threshold of R112. -/
theorem inv_beginFinish {s : State} (h : s.Inv) (hq : s.seq = .idle) (hph : s.phase = .active) :
    s.beginFinish.Inv := by
  have ⟨_, _, ht, hseq⟩ := h
  have hpend : s.pend = [] := (seqInv_of_idle hq).1 hseq
  refine inv_of_err_kept h rfl rfl ht ((seqInv_of_busy rfl).2 ⟨hph, ?_⟩)
  split_ifs with h56
  · exact ⟨hpend, h56⟩
  · exact ⟨hpend, show s.off ≤ 55 by omega⟩

/-! ## The invariant under a micro-step -/

theorem inv_prepare_load {s : State} (h : s.Inv) {job : Job} (hq : s.seq = .busy job .prepare) :
    ((s.prepare job).load.setSeq (.busy job .rounds)).Inv := by
  have ⟨_, _, _, hseq⟩ := h
  have hkept {α : Type} (f : State → α) (hb : ∀ s b, f (State.setBuf s b) = f s) := prepare_frame f hb s job
  exact inv_of_err_kept h (hkept (fun s => s.err) setBuf_err) (hkept (fun s => s.ecause) setBuf_ecause) (by simp)
    (seqInv_busy_of_agree hseq hq rfl (hkept (fun s => s.phase) setBuf_phase) (hkept (fun s => s.pend) setBuf_pend)
      (hkept State.off off_setBuf))

/-- T goes up by one from a value below 80 (R150). -/
theorem inv_roundStep {s : State} (h : s.Inv) {job : Job} (hq : s.seq = .busy job .rounds) (ht : s.t.toNat < 80) :
    s.roundStep.Inv := by
  have ⟨_, _, _, hseq⟩ := h
  have ht' : s.roundStep.t.toNat ≤ 80 := by
    rw [roundStep_t]
    bv_omega
  exact inv_of_err_kept h rfl rfl ht' (seqInv_busy_of_agree hseq hq hq rfl rfl rfl)

/-- FOLD ends a job in IDLE with nothing pending, except that the first block of a FINISH is followed by the second. -/
theorem inv_fold_complete {s : State} (h : s.Inv) {job : Job} (hq : s.seq = .busy job .rounds) :
    (s.fold.complete job).Inv := by
  have ⟨_, _, ht, hseq⟩ := h
  obtain ⟨hactive, hfits⟩ := (seqInv_of_busy hq).1 hseq
  cases job with
  | updateBlock => exact inv_of_err_kept h rfl rfl ht ((seqInv_of_idle rfl).2 rfl)
  | finishOne => exact inv_of_err_kept h rfl rfl ht ((seqInv_of_idle rfl).2 hfits.1)
  | finishFirst => exact inv_of_err_kept h rfl rfl ht ((seqInv_of_busy (job := .finishLast) rfl).2 ⟨hactive, hfits⟩)
  | finishLast => exact inv_of_err_kept h rfl rfl ht ((seqInv_of_idle rfl).2 hfits.1)

theorem inv_microStep {s : State} (h : s.Inv) : s.microStep.Inv := by
  rcases microStep_cases s with ⟨_, e⟩ | ⟨job, hq, e⟩ | ⟨job, hq, ht, e⟩ | ⟨job, hq, _, e⟩ <;> rw [e]
  · exact h
  · exact inv_prepare_load h hq
  · exact inv_roundStep h hq ht
  · exact inv_fold_complete h hq

/-! ## The invariant under an accepted word -/

theorem inv_accept {w : CmdWord} {s t : State} (h : s.Inv) (hq : s.seq = .idle) (ha : accept w s = .next t) :
    t.Inv := by
  rcases accept_cases w s with ⟨e, _⟩ | ⟨e, _⟩ | ⟨c, e⟩ | ⟨nb, data, _, hn, _, e⟩ | ⟨_, _, e⟩ <;>
    cases e.symm.trans ha
  · exact h
  · exact inv_startContext h hq
  · exact inv_raiseCmdError h c
  · exact inv_updateBytes h hq _ (by rw [length_beatBytes]; omega)
  · exact inv_finishContext h hq

theorem inv_beginWord {s : State} (h : s.Inv) (hq : s.seq = .idle) (w : CmdWord) : (s.beginWord w).Inv := by
  rcases beginWord_cases w s with ⟨e, _⟩ | ⟨e, _⟩ | ⟨c, e⟩ | ⟨nb, data, _, hn, hph, e⟩ | ⟨_, hph, e⟩ <;> rw [e]
  · exact h
  · exact inv_startContext h hq
  · exact inv_raiseCmdError h c
  · exact inv_beginUpdate h hq hph _ (by rw [length_beatBytes]; exact hn)
  · exact inv_beginFinish h hq hph

/-- Settles O47, by what a step can do. -/
theorem stepKeepsTheInvariant : Obligations.StepKeepsTheInvariant := by
  intro s t h hstep
  rcases step_cases s with ⟨_, rest, _, _, e⟩ | ⟨_, rest, _, _, hq, _, e⟩ | ⟨_, rest, _, _, _, _, e⟩ | ⟨_, e⟩
  · cases e.symm.trans hstep
    exact inv_resetEdge _
  · exact inv_accept (inv_setHost h rest) hq (e.symm.trans hstep)
  · cases e.symm.trans hstep
    exact inv_setHost h rest
  · cases e.symm.trans hstep
    exact inv_microStep h

/-- Settles O48, by what a clock edge can do. -/
theorem clockEdgeKeepsTheInvariant : Obligations.ClockEdgeKeepsTheInvariant := by
  intro s p h
  rcases clockEdge_cases p s with ⟨_, e⟩ | ⟨_, hq, _, e⟩ | ⟨_, _, _, e⟩ | ⟨_, _, e⟩ <;> rw [e]
  · exact inv_resetEdge s
  · exact inv_beginWord h hq p.cmd
  · exact h
  · exact inv_microStep h

/-! ## H0..H4 -/

theorem complete_h (s : State) (job : Job) : (s.complete job).h = s.h := by
  cases job <;> simp [State.complete]

/-- The accepting edge of a beat leaves H alone: a block that the beat completes is compressed later (R229). -/
theorem beginUpdate_h (s : State) (vs : List Byte) : (s.beginUpdate vs).h = s.h := by
  unfold State.beginUpdate
  split_ifs with hw
  · exact h_within s vs hw
  · simp [State.beginBlock]

theorem beginWord_start (s : State) {w : CmdWord} (hd : decode w = .ok .start) : s.beginWord w = s.startContext := by
  simp [State.beginWord, hd, State.beginInstr]

theorem beginWord_h {s : State} {w : CmdWord} (hd : decode w ≠ .ok .start) : (s.beginWord w).h = s.h := by
  rcases beginWord_cases w s with ⟨e, _⟩ | ⟨_, hstart⟩ | ⟨c, e⟩ | ⟨nb, data, _, _, _, e⟩ | ⟨_, _, e⟩
  · rw [e]
  · exact absurd hstart hd
  · rw [e, raiseCmdError_h]
  · rw [e, beginUpdate_h]
  · rw [e, State.beginFinish, setSeq_h]

theorem microStep_fold {s : State} {job : Job} (hq : s.seq = .busy job .rounds) (ht : 80 ≤ s.t.toNat) :
    s.microStep = s.fold.complete job := by
  simp [State.microStep, hq, Nat.not_lt.2 ht]

/-- Of the micro-steps only FOLD writes H (R151). -/
theorem microStep_h {s : State} (hfold : ∀ job, s.seq = .busy job .rounds → s.t.toNat < 80) :
    s.microStep.h = s.h := by
  rcases microStep_cases s with ⟨_, e⟩ | ⟨job, _, e⟩ | ⟨job, _, _, e⟩ | ⟨job, hq, ht, _⟩
  · rw [e]
  · rw [e, setSeq_h, load_h, prepare_frame (fun s => s.h) setBuf_h]
  · rw [e, roundStep_h]
  · exact absurd ht (Nat.not_le.2 (hfold job hq))

/-- A clock edge that changes H is a reset, an accepted START, or a FOLD. -/
theorem clockEdge_h_cases (s : State) (p : PortIn) (hr : p.rst = false) (hne : (clockEdge p s).h ≠ s.h) :
    (s.seq = .idle ∧ p.cmdValid = true ∧ decode p.cmd = .ok .start) ∨
      ∃ job, s.seq = .busy job .rounds ∧ 80 ≤ s.t.toNat := by
  rcases clockEdge_cases p s with ⟨h1, _⟩ | ⟨_, hq, hv, e⟩ | ⟨_, _, _, e⟩ | ⟨_, _, e⟩
  · simp [hr] at h1
  · by_contra hno
    refine hne ?_
    rw [e]
    exact beginWord_h fun hd => hno (.inl ⟨hq, hv, hd⟩)
  · exact absurd (by rw [e]) hne
  · by_contra hno
    refine hne ?_
    rw [e]
    exact microStep_h fun job hq => Nat.not_le.1 fun ht => hno (.inr ⟨job, hq, ht⟩)

/-- Settles O42: of what a clock edge can do, only START and FOLD write H. -/
theorem hashWordsChangeOnlyAtFoldAndStart : Obligations.HashWordsChangeOnlyAtFoldAndStart := by
  refine ⟨fun s p hr hq hv hd => ?_, fun s p job hr hq ht => ?_, clockEdge_h_cases, rfl⟩
  · have hp : p = present p.cmd := by rw [present, ← hr, ← hv]
    rw [hp, clockEdge_accept s _ hq, beginWord_start s hd, startContext_h]
  · have hb : s.busy = true := by simp [State.busy, hq]
    rw [clockEdge_busy s p hr hb, microStep_fold hq ht, complete_h, fold_h, HashRegs.addWork]

/-! ## E_SEQ and STATUS -/

/-- Settles O13: E_SEQ is the command error with code 4 (R201, R202). -/
theorem updateAndFinishRaiseSequenceErrorWhenFinalized :
    Obligations.UpdateAndFinishRaiseSequenceErrorWhenFinalized := by
  intro s hp
  constructor
  · intro nb data hn
    have hn' : ¬ 4 < nb.toNat := by omega
    simp [exec, execUpdate, hn', hp, State.raiseCmdError, CmdCause.code]
  · simp [exec, execFinish, hp, State.raiseCmdError, CmdCause.code]

theorem busy_iff (s : State) : s.busy = true ↔ s.seq ≠ .idle := by
  cases hq : s.seq <;> simp [State.busy, hq]

theorem digestValid_iff (s : State) : s.digestValid = true ↔ s.phase = .finalized := by
  cases hp : s.phase <;> simp [State.digestValid, hp]

theorem status_bit_zero (s : State) : s.status.getLsbD 0 = s.busy := by
  simp only [State.status, BitVec.getLsbD_append, BitVec.getLsbD_ofBool]
  simp

theorem status_bit_one (s : State) : s.status.getLsbD 1 = s.digestValid := by
  simp only [State.status, BitVec.getLsbD_append, BitVec.getLsbD_ofBool]
  simp

theorem status_bit_two (s : State) : s.status.getLsbD 2 = s.err := by
  simp only [State.status, BitVec.getLsbD_append, BitVec.getLsbD_ofBool]
  simp

/-- ECAUSE stands from bit 3 on, and what lies above its three bits reads as 0. -/
theorem status_bit_add_three (s : State) (j : Nat) : s.status.getLsbD (3 + j) = s.ecause.getLsbD j := by
  match j with
  | 0 | 1 | 2 | n + 3 =>
    simp only [State.status, BitVec.getLsbD_append]
    simp

/-- Settles O41, field by field. -/
theorem statusWordFields : Obligations.StatusWordFields := by
  refine ⟨fun s => ⟨?_, ?_, ?_, status_bit_two s, ?_, ?_⟩, rfl⟩
  · rw [status_bit_zero, busy_iff]
  · rw [status_bit_zero, State.cmdReady, Bool.not_false, Bool.and_true, Bool.not_not]
  · rw [status_bit_one, digestValid_iff]
  · apply BitVec.eq_of_getLsbD_eq
    intro i hi
    simp [status_bit_add_three, hi]
  · apply BitVec.eq_of_getLsbD_eq
    intro i _
    rw [BitVec.getLsbD_extractLsb', show 6 + i = 3 + (3 + i) by omega, status_bit_add_three]
    simp

end Sys2Proof.Machine
end

section
/-! PROOFS. The obligations of spec/20_memory.md: BufWriteByte (R52), and the byte order of the digest (R55, R175). -/

namespace Sys2Proof.Machine

/-- Settles O39: the byte laws of the buffer rest on those of one lane of a word. -/
theorem bufWriteByteWritesOneByte : Obligations.BufWriteByteWritesOneByte :=
  readByte_writeByte

/-- R175: the port holds the five words with H0 uppermost. -/
theorem digest_word (h : HashRegs) (i : Nat) (hi : i < 5) : h.digest.extractLsb' (32 * (4 - i)) 32 = h.word i := by
  apply BitVec.eq_of_getLsbD_eq
  intro j hj
  rw [BitVec.getLsbD_extractLsb']
  simp only [HashRegs.digest, BitVec.getLsbD_append]
  match i, hi with
  | 0, _ | 1, _ | 2, _ | 3, _ | 4, _ => grind [HashRegs.word]

/-- R55: a byte of the port lies within one word, since 152 − 8n = 32·(4 − n / 4) + 8·(3 − n % 4). -/
theorem digestByte_eq_byte_of_word (s : State) (n : Nat) (hn : n < 20) :
    s.digestByte n = (s.h.word (n / 4)).extractLsb' (8 * (3 - n % 4)) 8 := by
  rw [← digest_word s.h (n / 4) (by omega)]
  apply BitVec.eq_of_getLsbD_eq
  intro j hj
  have hpos : 152 - 8 * n + j = 32 * (4 - n / 4) + (8 * (3 - n % 4) + j) := by omega
  have hword : 8 * (3 - n % 4) + j < 32 := by omega
  simp only [State.digestByte, State.digest, BitVec.getLsbD_extractLsb', hpos, hword, decide_true, Bool.true_and]

/-- Settles O40: byte 0 is the uppermost one by definition, and the port does not read LANE_ORDER. -/
theorem digestBytesAreBigEndian : Obligations.DigestBytesAreBigEndian :=
  fun s n hn => ⟨digestByte_eq_byte_of_word s n hn, rfl, fun _ => rfl⟩

end Sys2Proof.Machine
end

section
/-! PROOFS. The obligations of spec/30_encoding.md: the decoder and the encoder (R70 to R79, R81), the empty beat and
the unused lanes (R72, R74), UPDATE.B, FEED and HASH (R82, R83), the disassembler's text (R80), and the digest that
START, the beats of a stream and FINISH leave (R83, R109). -/

namespace Sys2Proof

/-! ## The decoder, answer by answer -/

/-- The fields that the decoder's answer belongs to (R76, R77, R79). -/
def DecodesTo (w : CmdWord) : Except CmdCause Instr → Prop
  | .error .rsvdOpc => 4 ≤ (opcField w).toNat
  | .error .rsvdBit => (opcField w).toNat < 4 ∧ rsvField w = true
  | .error .rsvdNb => opcField w = 2 ∧ rsvField w = false ∧ 4 < (nbField w).toNat
  | .error .seq => False
  | .ok .nop => opcField w = 0 ∧ rsvField w = false
  | .ok .start => opcField w = 1 ∧ rsvField w = false
  | .ok (.update nb data) =>
    (opcField w = 2 ∧ rsvField w = false) ∧ nb = nbField w ∧ data = dataField w ∧ nb.toNat ≤ 4
  | .ok .finish => opcField w = 3 ∧ rsvField w = false

theorem decodesTo_decode (w : CmdWord) : DecodesTo w (decode w) := by
  unfold decode
  split_ifs with hopc hrsv hnb h0 h1 h2
  · exact hopc
  · exact ⟨Nat.not_le.1 hopc, hrsv⟩
  · exact ⟨hnb.1, Bool.eq_false_of_not_eq_true hrsv, hnb.2⟩
  · exact ⟨h0, Bool.eq_false_of_not_eq_true hrsv⟩
  · exact ⟨h1, Bool.eq_false_of_not_eq_true hrsv⟩
  · exact ⟨⟨h2, Bool.eq_false_of_not_eq_true hrsv⟩, rfl, rfl, Nat.not_lt.1 fun h => hnb ⟨h2, h⟩⟩
  · have h3 : opcField w = 3 := by
      rcases opcField_cases w with h | h | h | h | h
      exacts [absurd h hopc, absurd h h0, absurd h h1, absurd h h2, h]
    exact ⟨h3, Bool.eq_false_of_not_eq_true hrsv⟩

/-- The decoder gives an answer exactly to the words with that answer's fields. -/
theorem decode_eq_iff (w : CmdWord) (r : Except CmdCause Instr) : decode w = r ↔ DecodesTo w r := by
  refine ⟨fun h => h ▸ decodesTo_decode w, fun h => ?_⟩
  match r, h with
  | .error .rsvdOpc, hopc => exact if_pos hopc
  | .error .rsvdBit, ⟨hopc, hrsv⟩ => simp [decode, Nat.not_le.2 hopc, hrsv]
  | .error .rsvdNb, ⟨hopc, hrsv, hnb⟩ => simp [decode, hopc, hrsv, hnb]
  | .ok .nop, ⟨hopc, hrsv⟩ => simp [decode, hopc, hrsv]
  | .ok .start, ⟨hopc, hrsv⟩ => simp [decode, hopc, hrsv]
  | .ok (.update _ _), ⟨⟨hopc, hrsv⟩, rfl, rfl, hnb⟩ => simp [decode, hopc, hrsv, Nat.not_lt.2 hnb]
  | .ok .finish, ⟨hopc, hrsv⟩ => simp [decode, hopc, hrsv]

/-! ## The word of a command -/

/-- A word is its four fields (R70, R71). -/
theorem packWord_fields (w : CmdWord) :
    packWord (opcField w) (BitVec.ofBool (rsvField w)) (nbField w) (dataField w) = w := by
  apply BitVec.eq_of_getLsbD_eq
  intro i hi
  simp only [packWord, opcField, rsvField, nbField, dataField, BitVec.getLsbD_append, BitVec.getLsbD_extractLsb',
    BitVec.getLsbD_ofBool]
  grind

/-- The decoder reads a well-formed command from its word (R79, R80). -/
theorem decode_encode {i : Instr} (hwf : i.wellFormed = true) : decode (encode i) = .ok i := by
  rw [decode_eq_iff]
  cases i with
  | nop | start | finish => simp [DecodesTo, encode]
  | update nb data => simpa [DecodesTo, encode, Instr.wellFormed] using hwf

theorem wellFormed_of_decode {w : CmdWord} {i : Instr} (h : decode w = .ok i) : i.wellFormed = true := by
  cases i with
  | nop | start | finish => rfl
  | update nb data =>
    obtain ⟨_, _, _, hnb⟩ := (decode_eq_iff w _).1 h
    exact decide_eq_true hnb

/-- The word of a decoded command is the decoded word with the ignored bits cleared (R76, R78). -/
theorem encode_of_decode {w : CmdWord} {i : Instr} (h : decode w = .ok i) : encode i = w &&& i.usedBits := by
  rw [decode_eq_iff] at h
  cases i with
  | nop => exact ((masked_eq_iff w 0).2 h).symm
  | start => exact ((masked_eq_iff w 1).2 h).symm
  | finish => exact ((masked_eq_iff w 3).2 h).symm
  | update nb data =>
    obtain ⟨⟨hopc, hrsv⟩, rfl, rfl, _⟩ := h
    have hw := packWord_fields w
    rw [hopc, hrsv] at hw
    calc encode (.update (nbField w) (dataField w)) = w := hw
      _ = w &&& BitVec.allOnes 40 := BitVec.and_allOnes.symm

/-- Settles O1, by what each answer of the decoder says of the fields. -/
theorem decodeAndEncodeAgree : Obligations.DecodeAndEncodeAgree :=
  ⟨fun _ => decode_encode, fun _ _ h => ⟨wellFormed_of_decode h, encode_of_decode h⟩⟩

/-! ## The match and mask rows -/

theorem maskBits_of_mem_opcodeRows : ∀ r ∈ opcodeRows, r.maskBits = 0xF800000000 := by decide

theorem matchBits_pairwise_ne : opcodeRows.Pairwise fun r r' => r.matchBits ≠ r'.matchBits := by decide

/-- The rows are those of the opcodes below 4 (R75, R76). -/
theorem opcode_of_mem_opcodeRows :
    ∀ r ∈ opcodeRows, ∃ opc : BitVec 4, opc.toNat < 4 ∧ r.matchBits = opc ++ (0 : BitVec 36) := by decide

theorem exists_row_of_opcode :
    ∀ opc : BitVec 4, opc.toNat < 4 → ∃ r ∈ opcodeRows, r.matchBits = opc ++ (0 : BitVec 36) := by decide

theorem matchesWord_iff {r : OpcodeRow} (hr : r ∈ opcodeRows) (w : CmdWord) :
    r.matchesWord w = true ↔ w &&& 0xF800000000 = r.matchBits := by
  rw [OpcodeRow.matchesWord, maskBits_of_mem_opcodeRows r hr, decide_eq_true_eq]

/-- The rows share one mask, so a word in two of them would have both of their matches. -/
theorem opcodeRows_disjoint :
    opcodeRows.Pairwise fun r r' => ∀ w, ¬(r.matchesWord w = true ∧ r'.matchesWord w = true) := by
  refine matchBits_pairwise_ne.imp_of_mem fun hr hr' hne w ⟨hm, hm'⟩ => hne ?_
  rw [← (matchesWord_iff hr w).1 hm, (matchesWord_iff hr' w).1 hm']

theorem exists_row_iff (w : CmdWord) :
    (∃ r ∈ opcodeRows, r.matchesWord w = true) ↔ (opcField w).toNat < 4 ∧ rsvField w = false := by
  constructor
  · rintro ⟨r, hr, hm⟩
    obtain ⟨opc, hlt, hbits⟩ := opcode_of_mem_opcodeRows r hr
    rw [matchesWord_iff hr, hbits, masked_eq_iff] at hm
    exact ⟨hm.1 ▸ hlt, hm.2⟩
  · rintro ⟨hlt, hrsv⟩
    obtain ⟨r, hr, hbits⟩ := exists_row_of_opcode _ hlt
    exact ⟨r, hr, (matchesWord_iff hr w).2 (hbits ▸ (masked_eq_iff w _).2 ⟨rfl, hrsv⟩)⟩

theorem no_row_iff (w : CmdWord) :
    (∀ r ∈ opcodeRows, r.matchesWord w = false) ↔ 4 ≤ (opcField w).toNat ∨ rsvField w = true := by
  have h := not_congr (exists_row_iff w)
  simpa [imp_iff_not_or] using h

/-- The words that are command errors, in the order of R77. -/
theorem exists_decode_error_iff (w : CmdWord) :
    (∃ c, decode w = .error c) ↔
      (4 ≤ (opcField w).toNat ∨ rsvField w = true) ∨
        ((opcField w = 2 ∧ rsvField w = false) ∧ 4 < (nbField w).toNat) := by
  simp only [decode_eq_iff]
  constructor
  · rintro ⟨c, h⟩
    match c, h with
    | .rsvdOpc, hopc => exact .inl (.inl hopc)
    | .rsvdBit, ⟨_, hrsv⟩ => exact .inl (.inr hrsv)
    | .rsvdNb, ⟨hopc, hrsv, hnb⟩ => exact .inr ⟨⟨hopc, hrsv⟩, hnb⟩
  · rintro ((hopc | hrsv) | ⟨⟨hopc, hrsv⟩, hnb⟩)
    · exact ⟨.rsvdOpc, hopc⟩
    · by_cases hopc : 4 ≤ (opcField w).toNat
      · exact ⟨.rsvdOpc, hopc⟩
      · exact ⟨.rsvdBit, Nat.not_le.1 hopc, hrsv⟩
    · exact ⟨.rsvdNb, hopc, hrsv, hnb⟩

/-- Settles O2: R76's mask selects the fields OPC and RSV, by which the decoder answers. -/
theorem decodeFollowsMatchAndMaskRows : Obligations.DecodeFollowsMatchAndMaskRows := by
  refine ⟨opcodeRows_disjoint, fun w => ⟨?_, ?_, ?_, fun nb data => ?_, ?_⟩⟩
  · exact (decode_eq_iff w _).trans (masked_eq_iff w 0).symm
  · exact (decode_eq_iff w _).trans (masked_eq_iff w 1).symm
  · exact (decode_eq_iff w _).trans (masked_eq_iff w 3).symm
  · exact (decode_eq_iff w _).trans (and_congr_left' (masked_eq_iff w 2).symm)
  · rw [exists_decode_error_iff, no_row_iff]
    exact or_congr_right (and_congr_left' (masked_eq_iff w 2).symm)

/-- Settles O3: the fields of the four causes. -/
theorem illegalEncodingsAndTheirCauses : Obligations.IllegalEncodingsAndTheirCauses :=
  fun w => ⟨decode_eq_iff w _, decode_eq_iff w _, decode_eq_iff w _, (decode_eq_iff w _).1⟩

/-- Settles O4: the fields of the answers NOP, START, FINISH and E_RSVD_BIT name neither NB nor DATA. -/
theorem ignoredFieldsAcceptAnyValue : Obligations.IgnoredFieldsAcceptAnyValue :=
  fun nb data =>
    ⟨(decode_eq_iff _ _).2 ⟨opcField_packWord 0 0 nb data, rsvField_packWord 0 0 nb data⟩,
      (decode_eq_iff _ _).2 ⟨opcField_packWord 1 0 nb data, rsvField_packWord 1 0 nb data⟩,
      (decode_eq_iff _ _).2 ⟨opcField_packWord 3 0 nb data, rsvField_packWord 3 0 nb data⟩,
      fun opc hopc =>
        (decode_eq_iff _ _).2 ⟨(opcField_packWord opc 1 nb data).symm ▸ hopc, rsvField_packWord opc 1 nb data⟩⟩

/-- Settles O5, by evaluation at R81's words. -/
theorem workedEncodings : Obligations.WorkedEncodings := by
  unfold Obligations.WorkedEncodings
  decide

end Sys2Proof

namespace Sys2Proof.Machine

/-! ## UPDATE: the empty beat and the unused lanes (R72, R74) -/

/-- Settles O24: a beat of no bytes deposits nothing and adds nothing to L. -/
theorem emptyUpdateChangesNothing : Obligations.EmptyUpdateChangesNothing := by
  intro s data hp
  rw [exec_update_active s 0 data hp (by decide)]
  exact congrArg _ (updateBytes_nil s)

/-- A beat reads the lanes below NB only. -/
theorem beatBytes_congr {lanes : LaneOrder} {n : Nat} {data data' : Word}
    (h : ∀ k, k < n → laneByte lanes data k = laneByte lanes data' k) :
    beatBytes lanes n data = beatBytes lanes n data' :=
  List.map_congr_left fun k hk => h k (List.mem_range.1 hk)

/-- Settles O26: UPDATE sees DATA through the bytes of its beat alone. -/
theorem unusedLanesHaveNoEffect : Obligations.UnusedLanesHaveNoEffect := by
  intro s nb data data' hn hp h
  have hlen : (beatBytes s.lanes nb.toNat data).length < 64 := by rw [length_beatBytes]; omega
  refine ⟨_, exec_update_active s nb data hp hn, ?_, updateBytes_err s _ hlen, updateBytes_ecause s _ hlen⟩
  rw [exec_update_active s nb data' hp hn, beatBytes_congr h]

/-! ## UPDATE.B and FEED (R82, R83) -/

/-- Settles O6: the command that UPDATE.B expands to is the beat of its bytes. -/
theorem updateByteFormCarriesItsBytes : Obligations.UpdateByteFormCarriesItsBytes := by
  refine ⟨fun lanes vs => ⟨fun h => ?_, fun h => if_neg h⟩, by decide⟩
  refine ⟨BitVec.ofNat 3 vs.length, packBytes lanes 0 vs, if_pos h, toNat_beatCount vs h.2, ?_, fun k hk hk4 => ?_⟩
  · rw [toNat_beatCount vs h.2, beatBytes_packBytes lanes vs h.2]
  · rw [laneByte_packBytes lanes vs h.2 k hk4, List.getD_eq_default _ _ hk]

theorem flatten_feedBeats (vs : List Byte) : (feedBeats vs).flatten = vs := by
  induction vs using feedBeats.induct with
  | case1 | case2 | case3 | case4 => rfl
  | case5 a b c d rest ih => simp [feedBeats, ih]

theorem length_feedBeats (vs : List Byte) : (feedBeats vs).length = (vs.length + 3) / 4 := by
  induction vs using feedBeats.induct with
  | case1 | case2 | case3 | case4 => simp [feedBeats]
  | case5 a b c d rest ih =>
    simp only [feedBeats, List.length_cons, ih]
    omega

theorem length_of_mem_feedBeats (vs : List Byte) : ∀ beat ∈ feedBeats vs, 1 ≤ beat.length ∧ beat.length ≤ 4 := by
  induction vs using feedBeats.induct with
  | case1 | case2 | case3 | case4 => simp [feedBeats]
  | case5 a b c d rest ih => simpa [feedBeats] using ih

/-- Every beat of FEED but the last has four bytes. -/
theorem length_getD_feedBeats (vs : List Byte) :
    ∀ k, k + 1 < (feedBeats vs).length → ((feedBeats vs).getD k []).length = 4 := by
  induction vs using feedBeats.induct with
  | case1 | case2 | case3 | case4 => simp [feedBeats]
  | case5 a b c d rest ih =>
    intro k hk
    cases k with
    | zero => rfl
    | succ k => exact ih k (by simpa [feedBeats] using hk)

/-- Settles O7, along the cuts of FEED. -/
theorem feedCutsBytesIntoBeatsOfFour : Obligations.FeedCutsBytesIntoBeatsOfFour := by
  intro lanes vs
  refine ⟨flatten_feedBeats vs, length_feedBeats vs, length_getD_feedBeats vs, length_of_mem_feedBeats vs, ?_, ?_⟩
  · simp [AsmLine.assemble, feedProgram]
  · simp [AsmLine.assemble, hashProgram, beatsProgram]

/-! ## The disassembler's text (R80) -/

theorem trimBlanks_blank_cons {c : Char} (hc : isBlank c = true) (cs : List Char) :
    trimBlanks (c :: cs) = trimBlanks cs := by
  rw [trimBlanks, List.dropWhile_cons_of_pos hc, trimBlanks]

/-- What holds of a text and of every hexadecimal digit holds of the text followed by hexadecimal digits. -/
theorem forall_mem_append_hexText {P : Char → Prop} (hP : ∀ m, m < 16 → P (hexDigit m)) {pre : List Char}
    (hpre : ∀ c ∈ pre, P c) (k n : Nat) : ∀ c ∈ pre ++ hexText k n, P c := by
  intro c hc
  rcases List.mem_append.1 hc with hc | hc
  · exact hpre c hc
  · obtain ⟨m, hm, rfl⟩ := mem_hexText k n c hc
    exact hP m hm

theorem hexDigit_not_blank {m : Nat} (hm : m < 16) : isBlank (hexDigit m) = false := by
  obtain ⟨hblank, _⟩ := hexDigit_spec m hm
  exact hblank

theorem hexDigit_ne_comma (m : Nat) (hm : m < 16) : hexDigit m ≠ ',' := by
  obtain ⟨_, _, _, hcomma, _⟩ := hexDigit_spec m hm
  exact hcomma

/-- A hexadecimal digit begins neither a comment nor a string. -/
theorem hexDigit_clean (m : Nat) (hm : m < 16) : hexDigit m ≠ ';' ∧ hexDigit m ≠ '"' := by
  obtain ⟨_, hsemi, hquote, _⟩ := hexDigit_spec m hm
  exact ⟨hsemi, hquote⟩

theorem splitAtChar_append (sep : Char) (post : List Char) {pre : List Char} (h : ∀ c ∈ pre, c ≠ sep) :
    splitAtChar sep (pre ++ sep :: post) = pre :: splitAtChar sep post := by
  induction pre with
  | nil => simp [splitAtChar]
  | cons c cs ih => simp [splitAtChar, h c (by simp), ih fun d hd => h d (by simp [hd])]

/-- Enough digits write the whole number. -/
theorem digitsValue_hexText_of_lt {k n : Nat} (h : n < 16 ^ k) : digitsValue 16 0 (hexText k n) = some n := by
  rw [digitsValue_hexText, Nat.mod_eq_of_lt h]

theorem readNumber_digit : ∀ n, n < 8 → readNumber [hexDigit n] = some n := by decide

theorem readNumber_blank_cons {c : Char} (hc : isBlank c = true) (cs : List Char) :
    readNumber (c :: cs) = readNumber cs := by
  rw [readNumber, trimBlanks_blank_cons hc, readNumber]

theorem readNumber_hexText {k n : Nat} (h : n < 16 ^ (k + 1)) :
    readNumber ('0' :: ['x'] ++ hexText (k + 1) n) = some n := by
  have hne : hexText (k + 1) n ≠ [] := by simp [hexText]
  rw [readNumber, trimBlanks_hexText ['x'] '0' k n (by decide), ← digitsValue_hexText_of_lt h]
  generalize hexText (k + 1) n = ds at *
  obtain ⟨d, ds, rfl⟩ := List.exists_cons_of_ne_nil hne
  rfl

/-- The operands that the disassembler writes after UPDATE read back as NB and DATA. -/
theorem readUpdate_hexText {nb : BitVec 3} (data : Word) (hnb : nb.toNat ≤ 4) :
    readUpdate (hexDigit nb.toNat :: [',', ' ', '0', 'x'] ++ hexText 8 data.toNat) =
      some (.command (.update nb data)) := by
  have htail : splitAtChar ',' ([' ', '0', 'x'] ++ hexText 8 data.toNat) =
      [' ' :: ('0' :: ['x'] ++ hexText 8 data.toNat)] :=
    splitAtChar_clean ',' _ (forall_mem_append_hexText (P := (· ≠ ',')) hexDigit_ne_comma (by simp) 8 data.toNat)
  have hsplit : splitAtChar ',' (hexDigit nb.toNat :: [',', ' ', '0', 'x'] ++ hexText 8 data.toNat) =
      [[hexDigit nb.toNat], ' ' :: ('0' :: ['x'] ++ hexText 8 data.toNat)] := by
    rw [← htail]
    exact splitAtChar_append ',' _ (pre := [hexDigit nb.toNat]) (by simpa using hexDigit_ne_comma _ (by omega))
  have hn : readNumber [hexDigit nb.toNat] = some nb.toNat := readNumber_digit _ nb.isLt
  have hd : readNumber (' ' :: ('0' :: ['x'] ++ hexText 8 data.toNat)) = some data.toNat := by
    rw [readNumber_blank_cons (by decide), readNumber_hexText data.isLt]
  rw [readUpdate, hsplit]
  simp only [List.mapM_cons, List.mapM_nil, hn, hd]
  simp [hnb, data.isLt]

theorem readRaw_hexText (w : CmdWord) : readRaw ('0' :: ['x'] ++ hexText 10 w.toNat) = some (.raw w) := by
  rw [readRaw, trimBlanks_hexText ['x'] '0' 9 w.toNat (by decide)]
  simp [length_hexText, digitsValue_hexText_of_lt (k := 10) w.isLt]

/-- The operands of a mnemonic begin after the blank that ends it. -/
theorem readCommand_update (cs : List Char) :
    readCommand (['U', 'P', 'D', 'A', 'T', 'E', ' '] ++ cs) = readUpdate (trimBlanks cs) :=
  rfl

theorem readCommand_cmd (cs : List Char) : readCommand (['.', 'c', 'm', 'd', ' '] ++ cs) = readRaw (trimBlanks cs) :=
  rfl

theorem readCommand_updateText {nb : BitVec 3} (data : Word) (hnb : nb.toNat ≤ 4) :
    readCommand ('U' :: ['P', 'D', 'A', 'T', 'E', ' ', hexDigit nb.toNat, ',', ' ', '0', 'x'] ++ hexText 8 data.toNat) =
      some (.command (.update nb data)) := by
  refine (readCommand_update (hexDigit nb.toNat :: [',', ' ', '0', 'x'] ++ hexText 8 data.toNat)).trans ?_
  rw [trimBlanks_hexText _ _ 7 _ (hexDigit_not_blank (by omega)), readUpdate_hexText data hnb]

theorem readCommand_cmdText (w : CmdWord) :
    readCommand ('.' :: ['c', 'm', 'd', ' ', '0', 'x'] ++ hexText 10 w.toNat) = some (.raw w) := by
  refine (readCommand_cmd ('0' :: ['x'] ++ hexText 10 w.toNat)).trans ?_
  rw [trimBlanks_hexText _ _ 9 _ (by decide), readRaw_hexText]

/-- A line without blanks at its ends and without a semicolon or a quote is read as it stands. -/
theorem assembleLine_hexText (lanes : LaneOrder) {c : Char} {pre : List Char} (k n : Nat) (hc : isBlank c = false)
    (hclean : ∀ d ∈ c :: pre, d ≠ ';' ∧ d ≠ '"') :
    assembleLine lanes (c :: pre ++ hexText (k + 1) n) =
      (readCommand (c :: pre ++ hexText (k + 1) n)).bind (AsmLine.assemble lanes) := by
  rw [assembleLine, stripComment_clean _ (forall_mem_append_hexText hexDigit_clean hclean (k + 1) n),
    trimBlanks_hexText pre c k n hc]
  rfl

theorem assembleLine_updateText (lanes : LaneOrder) {nb : BitVec 3} (data : Word) (hnb : nb.toNat ≤ 4) :
    assembleLine lanes
        ('U' :: ['P', 'D', 'A', 'T', 'E', ' ', hexDigit nb.toNat, ',', ' ', '0', 'x'] ++ hexText 8 data.toNat) =
      some [encode (.update nb data)] := by
  rw [assembleLine_hexText lanes 7 _ (by decide) (by simp [hexDigit_clean nb.toNat (by omega)]),
    readCommand_updateText data hnb]
  simp [AsmLine.assemble, Instr.wellFormed, hnb]

theorem assembleLine_cmdText (lanes : LaneOrder) (w : CmdWord) :
    assembleLine lanes ('.' :: ['c', 'm', 'd', ' ', '0', 'x'] ++ hexText 10 w.toNat) = some [w] := by
  rw [assembleLine_hexText lanes 9 _ (by decide) (by simp), readCommand_cmdText]
  rfl

/-- Settles O8: each form of the disassembler's text is read back. -/
theorem disassembledTextAssemblesBack : Obligations.DisassembledTextAssemblesBack := by
  intro lanes w
  unfold disassemble
  cases hd : decode w with
  | error c => exact assembleLine_cmdText lanes w
  | ok i =>
    cases i with
    | nop | start | finish => rfl
    | update nb data =>
      obtain ⟨_, _, _, hnb⟩ := (decode_eq_iff w _).1 hd
      exact assembleLine_updateText lanes data hnb

/-! ## Programs that the host presents word by word (R83, R109) -/

/-- The n steps from `s` lead to `t` and raise no command error; LANE_ORDER stays. -/
structure RunsQuietly (n : Nat) (s t : State) : Prop where
  run : Host.Core.run Sys2Proof.core n s = .next t
  faulted : faultedRun n s = s.faulted
  err : t.err = s.err
  ecause : t.ecause = s.ecause
  lanes : t.lanes = s.lanes

theorem runsQuietly_zero (s : State) : RunsQuietly 0 s s := ⟨rfl, rfl, rfl, rfl, rfl⟩

/-- A step that keeps ERR, ECAUSE and LANE_ORDER, before a run that raises no error. -/
theorem runsQuietly_succ {n : Nat} {s u t : State} (hstep : step s = .next u) (herr : u.err = s.err)
    (hcause : u.ecause = s.ecause) (hlanes : u.lanes = s.lanes) (h : RunsQuietly n u t) :
    RunsQuietly (n + 1) s t where
  run := (core_run_succ s u n hstep).trans h.run
  faulted := by rw [faultedRun_step hstep, h.faulted, State.faulted, State.faulted, herr, Bool.or_self]
  err := h.err.trans herr
  ecause := h.ecause.trans hcause
  lanes := h.lanes.trans hlanes

/-- In IDLE, a well-formed command whose word the host presents is executed (R224, R79). -/
theorem step_present_encode {s : State} {i : Instr} {rest : List PortIn} (hq : s.seq = .idle)
    (hh : s.host = present (encode i) :: rest) (hwf : i.wellFormed = true) : step s = exec i (s.setHost rest) :=
  step_presented s (encode i) i rest hq hh (decode_encode hwf)

theorem wellFormed_beatInstr (lanes : LaneOrder) {vs : List Byte} (h : vs.length ≤ 4) :
    (beatInstr lanes vs).wellFormed = true := by
  rw [beatInstr, Instr.wellFormed, toNat_beatCount vs h]
  exact decide_eq_true h

theorem absorbed_setHost {s : State} {vs : List Byte} (h : s.Absorbed vs) (ps : List PortIn) :
    (s.setHost ps).Absorbed vs := h

/-- The context after the FINISH of the stream `vs`, in IDLE: H holds the hash and L the byte count. -/
def State.Finished (t : State) (vs : List Byte) : Prop :=
  t.h = streamHash vs ∧ t.phase = .finalized ∧ t.seq = .idle ∧ t.byteCount = BitVec.ofNat 64 vs.length

theorem finished_finishContext {s : State} {vs : List Byte} (h : s.Absorbed vs) (hq : s.seq = .idle) :
    s.finishContext.Finished vs := by
  have ⟨_, _, hcount, _⟩ := h
  exact ⟨absorbed_finishContext h, finishContext_phase s, (finishContext_seq s).trans hq,
    (finishContext_byteCount s).trans hcount⟩

/-- The host may read the digest port after FINISH (R227). -/
theorem digestReadable_of_finished {t : State} {vs : List Byte} (h : t.Finished vs) : t.digestReadable = true := by
  obtain ⟨_, hphase, hidle, _⟩ := h
  simp [State.digestReadable, State.digestValid, State.busy, hphase, hidle]

/-- What the host presents to have the commands carried out one after another, and what it presents after them. -/
def presentProgram (is : List Instr) (rest : List PortIn) : List PortIn :=
  is.map (fun i => present (encode i)) ++ rest

theorem presentProgram_cons (i : Instr) (is : List Instr) (rest : List PortIn) :
    presentProgram (i :: is) rest = present (encode i) :: presentProgram is rest := rfl

/-- The beats of a stream and FINISH, from a context that has absorbed `ps`: the hash of all the bytes (R108, R109). -/
theorem run_beats_finish (beats : List (List Byte)) (rest : List PortIn) :
    ∀ (s : State) (ps : List Byte), s.seq = .idle → s.Absorbed ps → (∀ beat ∈ beats, beat.length ≤ 4) →
      s.host = presentProgram (beats.map (beatInstr s.lanes) ++ [Instr.finish]) rest →
      ∃ t, RunsQuietly (beats.length + 1) s t ∧ t.Finished (ps ++ beats.flatten) ∧ t.host = rest := by
  induction beats with
  | nil =>
    intro s ps hq ha _ hh
    have ⟨_, _, _, hphase⟩ := ha
    have hstep : step s = .next (s.setHost rest).finishContext :=
      (step_present_encode hq hh rfl).trans (exec_finish_active _ hphase)
    rw [List.flatten_nil, List.append_nil]
    exact ⟨_, runsQuietly_succ hstep (by simp) (by simp) (by simp) (runsQuietly_zero _),
      finished_finishContext (absorbed_setHost ha rest) hq, by simp⟩
  | cons beat beats ih =>
    intro s ps hq ha hb hh
    have ⟨_, _, _, hphase⟩ := ha
    have h4 : beat.length ≤ 4 := hb beat (by simp)
    have h64 : beat.length < 64 := by omega
    rw [List.map_cons, List.cons_append, presentProgram_cons] at hh
    generalize hqueue : presentProgram (beats.map (beatInstr s.lanes) ++ [Instr.finish]) rest = queue at hh
    have hstep : step s = .next ((s.setHost queue).updateBytes beat) :=
      (step_present_encode hq hh (wellFormed_beatInstr s.lanes h4)).trans
        (exec_beat_active (s.setHost queue) beat hphase h4)
    have hlanes : ((s.setHost queue).updateBytes beat).lanes = s.lanes := updateBytes_lanes _ beat h64
    obtain ⟨t, hrun, hfin, hhost⟩ := ih ((s.setHost queue).updateBytes beat) (ps ++ beat)
      ((updateBytes_seq _ beat h64).trans hq) (absorbed_updateBytes beat (absorbed_setHost ha queue) h64)
      (fun b hm => hb b (by simp [hm])) (by rw [updateBytes_host _ beat h64, hlanes, hqueue, setHost_host])
    rw [List.append_assoc, ← List.flatten_cons] at hfin
    exact ⟨t, runsQuietly_succ hstep (updateBytes_err _ beat h64) (updateBytes_ecause _ beat h64) hlanes hrun, hfin,
      hhost⟩

/-- START, the beats of a stream and FINISH: the hash of the stream, whatever stood before (R102, R109). -/
theorem run_beatsProgram (beats : List (List Byte)) (rest : List PortIn) {s : State} (hq : s.seq = .idle)
    (hb : ∀ beat ∈ beats, beat.length ≤ 4) (hh : s.host = presentProgram (beatsProgram s.lanes beats) rest) :
    ∃ t, RunsQuietly (beats.length + 2) s t ∧ t.Finished beats.flatten ∧ t.host = rest := by
  rw [beatsProgram, presentProgram_cons] at hh
  generalize hqueue : presentProgram (beats.map (beatInstr s.lanes) ++ [Instr.finish]) rest = queue at hh
  have hstep : step s = .next (s.setHost queue).startContext := step_present_encode hq hh rfl
  obtain ⟨t, hrun, hend⟩ := run_beats_finish beats rest (s.setHost queue).startContext [] hq (absorbed_start _) hb
    (by rw [startContext_host, setHost_host, startContext_lanes, setHost_lanes, hqueue])
  exact ⟨t, runsQuietly_succ hstep (by simp) (by simp) (by simp) hrun, hend⟩

/-- Settles O50, by START's empty context, one beat at a time, and FINISH. -/
theorem programDigestIsTheStreamHash : Obligations.ProgramDigestIsTheStreamHash := by
  intro s beats rest hq hb start
  obtain ⟨t, hrun, hfin, hhost⟩ := run_beatsProgram beats rest (s := start) hq hb rfl
  have ⟨hhash, hphase, hidle, hcount⟩ := hfin
  refine ⟨fun hs => ?_, t, hrun.run, hhash, hphase, hidle, hcount, hrun.err, hrun.ecause, hrun.lanes, hhost⟩
  have hquiet : faultedRun (beats.length + 2) start = false := hrun.faulted.trans hs
  refine ⟨hquiet, ?_⟩
  rw [digestOfRun_of_next hquiet hrun.run (digestReadable_of_finished hfin), State.digest, hhash]

end Sys2Proof.Machine
end

section
/-! PROOFS. The obligations of spec/40_hasher_commands.md: the accepted word (R100), NOP and START (R101, R102), what a
beat does to L, S and H (R103 to R107), the padded blocks of FINISH (R109 to R116), every split of a stream into beats
(R108), and stale contents and LANE_ORDER (R119, R178). -/

namespace Sys2Proof.Machine

/-! ## An accepted word -/

theorem accept_of_decode_ok {w : CmdWord} {i : Instr} (h : decode w = .ok i) (s : State) : accept w s = exec i s := by
  simp only [accept, h]

theorem accept_of_decode_error {w : CmdWord} {c : CmdCause} (h : decode w = .error c) (s : State) :
    accept w s = .next (s.raiseCmdError c) := by
  simp only [accept, h]

/-- R77 b: RSV = 1 with a legal opcode is E_RSVD_BIT, with code 2. -/
theorem accept_reserved_bit {opc : BitVec 4} (hopc : opc.toNat < 4) (nb : BitVec 3) (data : Word) (s : State) :
    accept (packWord opc 1 nb data) s = .next { s with err := true, ecause := if s.err then s.ecause else 2 } := by
  have ⟨_, _, _, hbit⟩ := ignoredFieldsAcceptAnyValue nb data
  exact accept_of_decode_error (hbit opc hopc) s

/-- Settles O9: port inputs without reset and with cmd_valid present their word. -/
theorem stepRunsTheDecodedCommand : Obligations.StepRunsTheDecodedCommand := by
  intro s p rest i hidle hhost hrst hvalid hdecode
  have hp : p = present p.cmd := by
    cases p
    simp_all [present]
  exact step_presented s p.cmd i rest hidle (hp ▸ hhost) hdecode

/-! ## NOP and START (R101, R102) -/

/-- Settles O19: NOP's word decodes with any NB and DATA, and its meaning is the state itself. -/
theorem nopChangesNothing : Obligations.NopChangesNothing := by
  refine fun s => ⟨rfl, fun nb data => ⟨?_, accept_reserved_bit (by decide) nb data s⟩⟩
  have ⟨hnop, _⟩ := ignoredFieldsAcceptAnyValue nb data
  exact accept_of_decode_ok hnop s

theorem startContext_startContext (s : State) : s.startContext.startContext = s.startContext := (rfl)

theorem off_startContext (s : State) : s.startContext.off = 0 := by simp [State.off]

/-- ERR = 0 gives ECAUSE = 0 (R30), so in IDLE no bit of STATUS is left after START (R33). -/
theorem status_startContext {s : State} (hinv : s.Inv) (hidle : s.seq = .idle) (herr : s.err = false) :
    s.startContext.status = 0x00 := by
  obtain ⟨herr_iff, _⟩ := hinv
  simp [State.status, State.digestValid, State.busy, hidle, herr, herr_iff.1 herr]

/-- Settles O20, by the writes of `startContext` and START's word, which decodes with any NB and DATA. -/
theorem startBeginsANewHash : Obligations.StartBeginsANewHash := by
  refine fun s => ⟨s.startContext, rfl, rfl, off_startContext s, rfl,
    congrArg Host.Outcome.next (startContext_startContext s), status_startContext,
    fun nb data => ⟨?_, accept_reserved_bit (by decide) nb data s⟩⟩
  have ⟨_, hstart, _⟩ := ignoredFieldsAcceptAnyValue nb data
  exact accept_of_decode_ok hstart s

/-! ## UPDATE: the counter (R104) -/

/-- A beat leaves in L_HI and L_LO what CounterAdd puts there. -/
theorem updateBytes_halves (s : State) (vs : List Byte) (h : vs.length < 64) :
    (s.updateBytes vs).lHi = (s.counterAdd vs.length).lHi ∧ (s.updateBytes vs).lLo = (s.counterAdd vs.length).lLo :=
  append_inj ((updateBytes_byteCount s vs h).trans (byteCount_counterAdd s vs.length (by omega)).symm)

/-- R104 for the count of a beat, in NB's own width. -/
theorem byteCount_counterAdd_nb (s : State) (nb : BitVec 3) :
    (s.counterAdd nb.toNat).byteCount = s.byteCount + nb.zeroExtend 64 := by
  rw [byteCount_counterAdd s nb.toNat (by omega), BitVec.ofNat_toNat]

/-- Settles O21, by the 33-bit sum of CounterAdd, whose bit 32 is the carry. -/
theorem updateAddsItsByteCountWithCarry : Obligations.UpdateAddsItsByteCountWithCarry := by
  intro s nb data hp hn
  have hlen := length_beatBytes s.lanes nb.toNat data
  have hl : (beatBytes s.lanes nb.toNat data).length < 64 := by omega
  obtain ⟨hhi, hlo⟩ := updateBytes_halves s _ hl
  obtain ⟨hsum, hcarry⟩ := counterAdd_halves s nb.toNat (by omega)
  rw [hlen] at hhi hlo
  refine ⟨_, exec_update_active s nb data hp hn, ?_, updateBytes_err s _ hl, updateBytes_ecause s _ hl, ?_, ?_⟩
  · rw [← byteCount_counterAdd_nb, State.byteCount, hhi, hlo]
    rfl
  · intro hfits
    rw [hhi, hlo, hsum, hcarry, if_neg (by omega), Nat.mod_eq_of_lt hfits]
    exact ⟨rfl, rfl⟩
  · intro hover
    rw [hhi, hlo, hsum, hcarry, if_pos hover]
    exact ⟨rfl, by omega⟩

/-! ## UPDATE: the bytes (R103, R105, R107) -/

/-- Settles O22: such a beat is its bytes written at OFF and its count added. -/
theorem updateDepositsItsBytesAtTheFillOffset : Obligations.UpdateDepositsItsBytesAtTheFillOffset := by
  intro s nb data hp hn hoff
  have hlen := length_beatBytes s.lanes nb.toNat data
  refine ⟨(s.counterAdd nb.toNat).lHi, (s.counterAdd nb.toNat).lLo,
    s.buf.writeBytes s.lanes s.off (beatBytes s.lanes nb.toNat data), ?_, byteCount_counterAdd_nb s nb, ?_, ?_⟩
  · rw [exec_update_active s nb data hp hn, updateBytes_within s _ (by omega), hlen]
    rfl
  · intro k hk
    rw [readByte_writeBytes _ _ _ _ _ (by omega) (by omega), if_pos (by omega), Nat.add_sub_cancel_left,
      getD_beatBytes _ _ _ _ hk]
  · intro o ho hout
    rw [readByte_writeBytes _ _ _ _ _ (by omega) ho, if_neg (by omega)]

theorem word_writeByte_of_lt (lanes : LaneOrder) (b : Buf) {o q : Nat} (v : Byte) (ho : o < 4 * q) (hq : q < 16) :
    (b.writeByte lanes o v).word q = b.word q := by
  rw [Buf.writeByte, word_setWord, if_neg (by omega)]

/-- Bytes written below a word leave that word alone (R52). -/
theorem word_writeBytes_of_le (lanes : LaneOrder) {q : Nat} (hq : q < 16) (vs : List Byte) :
    ∀ (b : Buf) (o : Nat), o + vs.length ≤ 4 * q → (b.writeBytes lanes o vs).word q = b.word q := by
  induction vs with
  | nil => intro b o _; rfl
  | cons v vs ih =>
    intro b o h
    rw [List.length_cons] at h
    rw [Buf.writeBytes, ih _ _ (by omega), word_writeByte_of_lt lanes b v (by omega) hq]

/-- The block that a beat completes, as words: the valid bytes and the beat's bytes up to offset 63. -/
def State.completedBlock (s : State) (vs : List Byte) : List Word :=
  beWords (s.validBytes ++ vs.take (64 - s.off))

/-- A beat that completes a block, in closed form: L, H, S, A..E and T, and nothing else. -/
theorem updateBytes_completing (s : State) (vs : List Byte) (h : 64 ≤ s.off + vs.length) (hl : vs.length < 64) :
    s.updateBytes vs =
      { s with
        h := refCompress s.h (s.completedBlock vs)
        lHi := (s.counterAdd vs.length).lHi
        lLo := (s.counterAdd vs.length).lLo
        buf := (scheduleTail (s.completedBlock vs)).writeBytes s.lanes 0 (vs.drop (64 - s.off))
        work := refRounds s.h (s.completedBlock vs) 80
        t := 80 } := by
  have hblock : (s.fullBlock vs).toList = s.completedBlock vs := fullBlock_toList s vs h
  rw [updateBytes_across s vs h hl, hblock, compress_of_block _ _ ((congrArg _ (setBuf_buf _ _)).trans hblock)]
  rfl

/-- Settles O23: the left-over bytes are at most three, so they are written into word 0 of the window alone. -/
theorem updateCompletingABlockCompressesIt : Obligations.UpdateCompletingABlockCompressesIt := by
  intro s nb data hp hn hoff block left
  have hlen := length_beatBytes s.lanes nb.toNat data
  have hlt := off_lt s
  have hdrop : ((beatBytes s.lanes nb.toNat data).drop (64 - s.off)).length = left := by
    rw [List.length_drop, hlen]; omega
  refine ⟨(s.counterAdd nb.toNat).lHi, (s.counterAdd nb.toNat).lLo,
    (scheduleTail block).writeBytes s.lanes 0 ((beatBytes s.lanes nb.toNat data).drop (64 - s.off)),
    refRounds s.h block 80, 80, ?_, byteCount_counterAdd_nb s nb, ?_, ?_, ?_⟩
  · rw [exec_update_active s nb data hp hn, updateBytes_completing s _ (by omega) (by omega), hlen]
    rfl
  · intro k hk
    rw [readByte_writeBytes _ _ _ _ _ (by omega) (by omega), if_pos (by omega), Nat.sub_zero,
      ← getD_beatBytes s.lanes nb.toNat data (64 - s.off + k) (by omega)]
    simp only [List.getD_eq_getElem?_getD, List.getElem?_drop]
  · intro k hk hk4
    rw [readByte_writeBytes _ _ _ _ _ (by omega) (by omega), if_neg (by omega), Buf.readByte,
      Nat.div_eq_of_lt hk4, Nat.mod_eq_of_lt hk4, word_scheduleTail block 0 (by decide)]
  · intro q hq hq16
    rw [word_writeBytes_of_le s.lanes hq16 _ _ _ (by omega), word_scheduleTail block q hq16]

/-! ## FINISH: the pad word and the length words (R111, R114) -/

/-- Settles O28, by the bytes of the padded buffer and the words around the pad word. -/
theorem paddingBitFollowsTheLastValidByte : Obligations.PaddingBitFollowsTheLastValidByte := by
  refine ⟨by decide, by decide, fun lanes b i hi => ⟨fun k hk => ?_, fun q hq => ?_, fun q hq hq16 => ?_⟩⟩
  · have hbyte := readByte_pad lanes b i (4 * (i / 4) + k) hi (by omega)
    rw [Buf.readByte, show (4 * (i / 4) + k) / 4 = i / 4 by omega, show (4 * (i / 4) + k) % 4 = k by omega] at hbyte
    have hlt : 4 * (i / 4) + k < i ↔ k < i % 4 := by omega
    have heq : 4 * (i / 4) + k = i ↔ k = i % 4 := by omega
    simpa only [hlt, heq] using hbyte
  · rw [word_pad lanes b i q hi (by omega), if_neg (by omega), if_pos hq]
  · rw [word_pad lanes b i q hi hq16, if_neg (by omega), if_neg (by omega)]

/-- The length words stand in S[14] and S[15] (R114). -/
theorem word_putLength (b : Buf) (hi lo : Word) {q : Nat} (hq : q < 16) :
    (b.putLength hi lo).word q = if q = 15 then lo else if q = 14 then hi else b.word q := by
  rw [Buf.putLength, word_setWord, word_setWord, Nat.mod_eq_of_lt hq]

/-- Settles O29, by the bit length as one 64-bit number and the words of the buffer with the length. -/
theorem lengthWordsHoldTheBitCount : Obligations.LengthWordsHoldTheBitCount := by
  refine fun s b => ⟨bitLen_eq s, rfl, rfl, ?_, ?_, fun q hq => ?_⟩
  · rw [word_putLength b _ _ (by decide), if_neg (by decide), if_pos rfl]
  · rw [word_putLength b _ _ (by decide), if_pos rfl]
  · rw [word_putLength b _ _ (by omega), if_neg (by omega), if_neg (by omega)]

/-! ## FINISH: its compressions (R109 to R116) -/

/-- The only block of a FINISH with OFF ≤ 55, as words. -/
def State.onlyBlock (s : State) : List Word :=
  beWords (s.validBytes ++ ((0x80 : Byte) :: List.replicate (55 - s.off) 0) ++ be64 (s.byteCount * 8))

/-- The first block of a FINISH with OFF ≥ 56, as words. -/
def State.firstBlock (s : State) : List Word :=
  beWords (s.validBytes ++ ((0x80 : Byte) :: List.replicate (63 - s.off) 0))

/-- The second block of a FINISH with OFF ≥ 56, as words. -/
def State.lastBlock (s : State) : List Word := beWords (List.replicate 56 (0 : Byte) ++ be64 (s.byteCount * 8))

/-- The state in PHASE 1 after the compression of a last block on top of the chaining value `h`. -/
def State.finalizedBy (s : State) (h : HashRegs) (block : List Word) : State :=
  { s with h := refCompress h block, buf := scheduleTail block, work := refRounds h block 80, t := 80,
           phase := .finalized }

theorem finalizedBy_h (s : State) (h : HashRegs) (block : List Word) :
    (s.finalizedBy h block).h = refCompress h block := (rfl)

/-- The last compression of FINISH and PHASE <- 1, on a prepared buffer. -/
theorem finalize_compress_setBuf (s : State) (b : Buf) :
    (s.setBuf b).compress.finalize = s.finalizedBy s.h b.toList := by
  rw [compress_eq]
  rfl

/-- A compression before the last one reaches the end through the chaining value and the block only. -/
theorem finalizedBy_compress_setBuf (s : State) (b : Buf) (h : HashRegs) (block : List Word) :
    (s.setBuf b).compress.finalizedBy h block = s.finalizedBy h block := by
  unfold State.finalizedBy
  rw [compress_eq]
  rfl

theorem prepOneBlock_eq_setBuf (s : State) : s.prepOneBlock = s.setBuf s.prepOneBlock.buf := by
  rw [State.prepOneBlock, setBuf_buf]

theorem prepFirstBlock_eq_setBuf (s : State) : s.prepFirstBlock = s.setBuf s.prepFirstBlock.buf := by
  rw [State.prepFirstBlock, setBuf_buf]

theorem prepLastBlock_eq_setBuf (s : State) : s.prepLastBlock = s.setBuf s.prepLastBlock.buf := by
  rw [State.prepLastBlock, setBuf_buf]

theorem finishContext_short (s : State) (h : s.off ≤ 55) : s.finishContext = s.finalizedBy s.h s.onlyBlock := by
  have h56 : ¬ 56 ≤ s.off := by omega
  rw [State.finishContext, if_neg h56, prepOneBlock_eq_setBuf, finalize_compress_setBuf, prepOneBlock_toList s h,
    State.onlyBlock]

theorem finishContext_long (s : State) (h : 56 ≤ s.off) :
    s.finishContext = s.finalizedBy (refCompress s.h s.firstBlock) s.lastBlock := by
  have hcount : s.prepFirstBlock.compress.byteCount = s.byteCount := by simp [State.byteCount]
  rw [State.finishContext, if_pos h, prepLastBlock_eq_setBuf, finalize_compress_setBuf, prepLastBlock_toList, hcount,
    compress_h, prepFirstBlock_toList s h, prepFirstBlock_h, prepFirstBlock_eq_setBuf, finalizedBy_compress_setBuf,
    State.firstBlock, State.lastBlock]

/-- Settles O30, by the one compression of FINISH in closed form. -/
theorem finishOfAShortBlockCompressesOnce : Obligations.FinishOfAShortBlockCompressesOnce := by
  intro s hp hoff block
  exact ⟨scheduleTail block, refRounds s.h block 80, 80,
    (exec_finish_active s hp).trans (congrArg _ (finishContext_short s hoff)), word_scheduleTail block⟩

/-- Settles O31, by the two compressions of FINISH in closed form. -/
theorem finishOfALongBlockCompressesTwice : Obligations.FinishOfALongBlockCompressesTwice := by
  intro s hp hoff first last
  exact ⟨scheduleTail last, refRounds (refCompress s.h first) last 80, 80,
    (exec_finish_active s hp).trans (congrArg _ (finishContext_long s hoff)), word_scheduleTail last⟩

/-! ## Every split of a stream into beats (R108) -/

/-- Stream bytes deposited one after another stay in one phase. -/
theorem phase_foldl_updateBytes (vs : List Byte) :
    ∀ s : State, (vs.foldl (fun s v => s.updateBytes [v]) s).phase = s.phase := by
  induction vs with
  | nil => intro s; rfl
  | cons v vs ih =>
    intro s
    rw [List.foldl_cons, ih, updateBytes_phase s [v] (by simp)]

/-- All lists of beats that join to the same bytes run to one state. -/
theorem exists_run_of_flatten {s : State} (hp : s.phase = .active) (vs : List Byte) :
    ∃ t : State, t.phase = .active ∧ ∀ (beats : List (List Byte)) (tail : List Instr),
      (∀ beat ∈ beats, beat.length ≤ 4) → beats.flatten = vs →
        execAll (beats.map (beatInstr s.lanes) ++ tail) s = execAll tail t := by
  refine ⟨_, (phase_foldl_updateBytes vs s).trans hp, fun beats tail hb hjoin => ?_⟩
  rw [execAll_beats beats s tail hp hb, hjoin]

/-- Settles O27: both lists of beats run to one state, alone and with FINISH after them. -/
theorem streamingInvariant : Obligations.StreamingInvariant := by
  intro s beats beats' hp hb hb' hjoin
  obtain ⟨t, ht, hrun⟩ := exists_run_of_flatten hp beats.flatten
  have halone := hrun beats [] hb rfl
  have halone' := hrun beats' [] hb' hjoin.symm
  have hfinish : execAll [.finish] t = .next t.finishContext := by
    simp only [execAll, exec_finish_active t ht]
  rw [List.append_nil] at halone halone'
  exact ⟨t, halone, halone', ht, t.finishContext, exec_finish_active t ht, (hrun beats _ hb rfl).trans hfinish,
    (hrun beats' _ hb' hjoin.symm).trans hfinish⟩

/-! ## Stale contents and LANE_ORDER (R119, R178) -/

/-- A digest and STATUS are made of the context alone. -/
theorem outputs_of_sameContext {s t : State} (h : s.SameContext t) : s.digest = t.digest ∧ s.status = t.status := by
  obtain ⟨hh, _, _, hphase, herr, hcause, hseq, _⟩ := h
  simp only [State.digest, State.status, State.digestValid, State.busy, hh, hphase, herr, hcause, hseq, and_self]

theorem sameContext_raiseCmdError {s t : State} (h : s.SameContext t) (c : CmdCause) :
    (s.raiseCmdError c).SameContext (t.raiseCmdError c) := by
  obtain ⟨hh, hhi, hlo, hphase, herr, hcause, hseq, hvalid⟩ := h
  exact ⟨hh, hhi, hlo, hphase, rfl, by rw [raiseCmdError_ecause, raiseCmdError_ecause, herr, hcause], hseq, hvalid⟩

/-- START leaves no byte of the buffer valid, so the contexts agree on none. -/
theorem sameContext_startContext {s t : State} (h : s.SameContext t) : s.startContext.SameContext t.startContext := by
  obtain ⟨_, _, _, _, herr, hcause, hseq, _⟩ := h
  have hnone : ∀ u : State, u.startContext.validBytes = [] := fun u =>
    List.length_eq_zero_iff.1 ((length_validBytes _).trans (off_startContext u))
  exact ⟨rfl, rfl, rfl, rfl, herr, hcause, hseq, fun _ => (hnone s).trans (hnone t).symm⟩

/-- Of H and the bytes not yet compressed, a beat makes the same in both states, whether it completes a block or not. -/
theorem sameContext_updateBytes {s t : State} (h : s.SameContext t) (hp : s.phase = .active) (vs : List Byte)
    (hl : vs.length < 64) : (s.updateBytes vs).SameContext (t.updateBytes vs) := by
  obtain ⟨hh, hhi, hlo, hphase, herr, hcause, hseq, hvalid⟩ := h
  have hoff : s.off = t.off := off_congr hlo
  have hcount : (s.updateBytes vs).byteCount = (t.updateBytes vs).byteCount := by
    rw [updateBytes_byteCount s vs hl, updateBytes_byteCount t vs hl, State.byteCount, State.byteCount, hhi, hlo]
  obtain ⟨hhi', hlo'⟩ := append_inj hcount
  have hdata : (s.updateBytes vs).h = (t.updateBytes vs).h ∧
      (s.updateBytes vs).validBytes = (t.updateBytes vs).validBytes := by
    by_cases hw : s.off + vs.length < 64
    · have hw' : t.off + vs.length < 64 := hoff ▸ hw
      rw [h_within s vs hw, h_within t vs hw', validBytes_within s vs hw, validBytes_within t vs hw', hh, hvalid hp]
      exact ⟨rfl, rfl⟩
    · have ha : 64 ≤ s.off + vs.length := Nat.not_lt.1 hw
      have ha' : 64 ≤ t.off + vs.length := hoff ▸ ha
      rw [h_across s vs ha hl, h_across t vs ha' hl, validBytes_across s vs ha hl, validBytes_across t vs ha' hl, hh,
        hvalid hp, hoff]
      exact ⟨rfl, rfl⟩
  obtain ⟨hh', hvalid'⟩ := hdata
  refine ⟨hh', hhi', hlo', ?_, ?_, ?_, ?_, fun _ => hvalid'⟩
  · rw [updateBytes_phase s vs hl, updateBytes_phase t vs hl, hphase]
  · rw [updateBytes_err s vs hl, updateBytes_err t vs hl, herr]
  · rw [updateBytes_ecause s vs hl, updateBytes_ecause t vs hl, hcause]
  · rw [updateBytes_seq s vs hl, updateBytes_seq t vs hl, hseq]

/-- FINISH compresses blocks made of the valid bytes and L, and no byte is valid in PHASE 1. -/
theorem sameContext_finishContext {s t : State} (h : s.SameContext t) (hp : s.phase = .active) :
    s.finishContext.SameContext t.finishContext := by
  obtain ⟨hh, hhi, hlo, _, herr, hcause, hseq, hvalid⟩ := h
  have hoff : s.off = t.off := off_congr hlo
  have hcount : s.byteCount = t.byteCount := by rw [State.byteCount, State.byteCount, hhi, hlo]
  have hh' : s.finishContext.h = t.finishContext.h := by
    by_cases h56 : 56 ≤ s.off
    · rw [finishContext_long s h56, finishContext_long t (hoff ▸ h56), finalizedBy_h, finalizedBy_h, State.firstBlock,
        State.firstBlock, State.lastBlock, State.lastBlock, hh, hvalid hp, hoff, hcount]
    · have h55 : s.off ≤ 55 := by omega
      rw [finishContext_short s h55, finishContext_short t (hoff ▸ h55), finalizedBy_h, finalizedBy_h, State.onlyBlock,
        State.onlyBlock, hh, hvalid hp, hoff, hcount]
  refine ⟨hh', by simpa using hhi, by simpa using hlo, by simp, by simpa using herr, by simpa using hcause,
    by simpa using hseq, fun hactive => ?_⟩
  exact absurd ((finishContext_phase s).symm.trans hactive) (by decide)

/-- Given the same stream bytes, each in its own lanes, both states run UPDATE to the same context again. -/
theorem sameContext_exec_beat {s t : State} (h : s.SameContext t) {vs : List Byte} (hl : vs.length ≤ 4) :
    ∃ s' t', exec (beatInstr s.lanes vs) s = .next s' ∧ exec (beatInstr t.lanes vs) t = .next t' ∧
      s'.SameContext t' := by
  have ⟨_, _, _, hphase, _⟩ := h
  cases hp : s.phase with
  | active =>
    exact ⟨_, _, exec_beat_active s vs hp hl, exec_beat_active t vs (hphase ▸ hp) hl,
      sameContext_updateBytes h hp vs (by omega)⟩
  | finalized =>
    have hn : (BitVec.ofNat 3 vs.length).toNat ≤ 4 := (toNat_beatCount vs hl).symm ▸ hl
    have ⟨hs, _⟩ := updateAndFinishRaiseSequenceErrorWhenFinalized s hp
    have ⟨ht, _⟩ := updateAndFinishRaiseSequenceErrorWhenFinalized t (hphase ▸ hp)
    exact ⟨_, _, hs _ _ hn, ht _ _ hn, sameContext_raiseCmdError h .seq⟩

theorem sameContext_exec_finish {s t : State} (h : s.SameContext t) :
    ∃ s' t', exec .finish s = .next s' ∧ exec .finish t = .next t' ∧ s'.SameContext t' := by
  have ⟨_, _, _, hphase, _⟩ := h
  cases hp : s.phase with
  | active =>
    exact ⟨_, _, exec_finish_active s hp, exec_finish_active t (hphase ▸ hp), sameContext_finishContext h hp⟩
  | finalized =>
    have ⟨_, hs⟩ := updateAndFinishRaiseSequenceErrorWhenFinalized s hp
    have ⟨_, ht⟩ := updateAndFinishRaiseSequenceErrorWhenFinalized t (hphase ▸ hp)
    exact ⟨_, _, hs, ht, sameContext_raiseCmdError h .seq⟩

/-- Settles O44: the outputs read the context alone, and each command keeps it the same. -/
theorem staleContentsAndLaneOrderNeverReachTheDigest : Obligations.StaleContentsAndLaneOrderNeverReachTheDigest := by
  intro s t h
  obtain ⟨hdigest, hstatus⟩ := outputs_of_sameContext h
  refine ⟨hdigest, hstatus, fun vs hl => sameContext_exec_beat h hl, ?_⟩
  rintro i (rfl | rfl | rfl)
  · exact ⟨s, t, rfl, rfl, h⟩
  · exact ⟨_, _, rfl, rfl, sameContext_startContext h⟩
  · exact sameContext_exec_finish h

end Sys2Proof.Machine
end

section
/-! PROOFS. The obligations of spec/41_compression.md: rotation and addition (R140, R141), the round functions (R142,
R144, R155), SCHEDULE (R149), LOAD and ROUND (R145, R146, R148, R150), and the circular window against the full
expansion (R152, R153). -/

namespace Sys2Proof.Machine

/-! ## The circular window (R152, R153) -/

/-- Settles O32, by the window before each round and Compress in closed form. -/
theorem windowCompressionIsTheFullExpansion : Obligations.WindowCompressionIsTheFullExpansion := by
  intro s
  exact ⟨round_uses_expansion s, scheduleTail s.buf.toList, refRounds s.h s.buf.toList 80, 80, compress_eq s,
    word_scheduleTail s.buf.toList⟩

/-! ## Rotation (R141) -/

theorem rotl_eq_rotateLeft (x : Word) {n : Nat} (hn : n < 32) : rotl x n = x.rotateLeft n := by
  rw [rotl, BitVec.rotateLeft_def, Nat.mod_eq_of_lt hn]

theorem rotl_zero (x : Word) : rotl x 0 = x := by
  rw [rotl, BitVec.shiftLeft_zero, BitVec.ushiftRight_eq_zero (Nat.le_refl 32), BitVec.or_zero]

/-- Bit i moves up by n places, or round past bit 31. -/
theorem getLsbD_rotl (x : Word) {n i : Nat} (hn : n < 32) (hi : i < 32) :
    (rotl x n).getLsbD ((i + n) % 32) = x.getLsbD i := by
  rw [rotl_eq_rotateLeft x hn, BitVec.getLsbD_rotateLeft, Nat.mod_eq_of_lt hn]
  by_cases hw : i + n < 32
  · have hmod : (i + n) % 32 = i + n := Nat.mod_eq_of_lt hw
    rw [hmod, decide_eq_false (by omega), cond_false, Nat.add_sub_cancel, decide_eq_true hw, Bool.true_and]
  · have hmod : (i + n) % 32 = i + n - 32 := by omega
    rw [hmod, decide_eq_true (by omega), cond_true, show 32 - n + (i + n - 32) = i by omega]

/-- Settles O34, by the bits of a rotation and the library's sum of two words; the examples are evaluated. -/
theorem rotationAndAdditionAreModular : Obligations.RotationAndAdditionAreModular := by
  refine ⟨fun x n hn => ⟨fun i hi => getLsbD_rotl x hn hi, fun _ => rfl⟩, rotl_zero, BitVec.toNat_add, ?_⟩
  decide

/-! ## The round functions (R142, R144, R155) -/

theorem getLsbD_ch (x y z : Word) {i : Nat} (hi : i < 32) :
    (ch x y z).getLsbD i = if x.getLsbD i then y.getLsbD i else z.getLsbD i := by
  rw [ch, BitVec.getLsbD_xor, BitVec.getLsbD_and, BitVec.getLsbD_and, BitVec.getLsbD_not, decide_eq_true hi,
    Bool.true_and]
  cases x.getLsbD i <;> simp

theorem getLsbD_maj (x y z : Word) (i : Nat) :
    (maj x y z).getLsbD i = decide (2 ≤ (x.getLsbD i).toNat + (y.getLsbD i).toNat + (z.getLsbD i).toNat) := by
  rw [maj, BitVec.getLsbD_xor, BitVec.getLsbD_xor, BitVec.getLsbD_and, BitVec.getLsbD_and, BitVec.getLsbD_and]
  generalize x.getLsbD i = a, y.getLsbD i = b, z.getLsbD i = c
  revert a b c
  decide

theorem ch_optimized (x y z : Word) : z ^^^ (x &&& (y ^^^ z)) = ch x y z := by
  refine BitVec.eq_of_getLsbD_eq fun i hi => ?_
  rw [getLsbD_ch x y z hi, BitVec.getLsbD_xor, BitVec.getLsbD_and, BitVec.getLsbD_xor]
  cases x.getLsbD i with
  | false => simp
  | true => simp [Bool.xor_comm (y.getLsbD i)]

theorem maj_optimized (x y z : Word) : (x &&& y) ||| (z &&& (x ||| y)) = maj x y z := by
  refine BitVec.eq_of_getLsbD_eq fun i _ => ?_
  rw [getLsbD_maj, BitVec.getLsbD_or, BitVec.getLsbD_and, BitVec.getLsbD_and, BitVec.getLsbD_or]
  generalize x.getLsbD i = a, y.getLsbD i = b, z.getLsbD i = c
  revert a b c
  decide

/-- Settles O33, by one bit of ch and of maj at a time. -/
theorem optimizedRoundFunctionsAgree : Obligations.OptimizedRoundFunctionsAgree := by
  intro x y z
  exact ⟨ch_optimized x y z, maj_optimized x y z, fun i hi => ⟨getLsbD_ch x y z hi, getLsbD_maj x y z i⟩⟩

/-! ## SCHEDULE (R149) -/

theorem schedule_of_lt (b : Buf) {t : Nat} (ht : t < 16) : b.schedule t = b := by
  rw [Buf.schedule, if_neg (by omega)]

/-- In a window of sixteen slots, d back is the rest of the sixteen ahead. -/
theorem word_sub {d e : Nat} (h : d + e = 16) (b : Buf) {t : Nat} (ht : 16 ≤ t) :
    b.word (t - d) = b.word ((t + e) % 16) := by
  rw [← word_mod b (t - d), show (t - d) % 16 = (t + e) % 16 by omega]

theorem schedule_of_le (b : Buf) {t : Nat} (ht : 16 ≤ t) :
    b.schedule t = b.setWord t
      (rotl (b.word ((t + 13) % 16) ^^^ b.word ((t + 8) % 16) ^^^ b.word ((t + 2) % 16) ^^^ b.word (t % 16)) 1) := by
  rw [Buf.schedule, if_pos ht, word_sub (by decide : 3 + 13 = 16) b ht, word_sub (by decide : 8 + 8 = 16) b ht,
    word_sub (by decide : 14 + 2 = 16) b ht, word_sub (by decide : 16 + 0 = 16) b ht, Nat.add_zero t]

/-- Settles O36, by the one word that SCHEDULE writes. -/
theorem scheduleWritesOneSlotOfTheWindow : Obligations.ScheduleWritesOneSlotOfTheWindow := by
  refine fun b t _ => ⟨schedule_of_lt b, fun ht => ⟨?_, fun q hq hne => ?_⟩⟩
  · rw [schedule_of_le b ht, word_setWord, Nat.mod_mod, if_pos rfl]
    rfl
  · rw [schedule_of_le b ht, word_setWord, Nat.mod_eq_of_lt hq, if_neg hne]

/-! ## LOAD and ROUND (R145, R146, R148, R150) -/

theorem stage_of_le_19 {t : Nat} (h : t ≤ 19) (x y z : Word) :
    roundFn t x y z = (x &&& y) ^^^ (~~~x &&& z) ∧ roundK t = 0x5A827999 := by
  have h20 : t < 20 := by omega
  simp only [roundFn, roundK, ch, if_pos h20, and_self]

theorem stage_of_le_39 {t : Nat} (hlo : 20 ≤ t) (h : t ≤ 39) (x y z : Word) :
    roundFn t x y z = x ^^^ y ^^^ z ∧ roundK t = 0x6ED9EBA1 := by
  have h20 : ¬ t < 20 := by omega
  have h40 : t < 40 := by omega
  simp only [roundFn, roundK, parity, if_neg h20, if_pos h40, and_self]

theorem stage_of_le_59 {t : Nat} (hlo : 40 ≤ t) (h : t ≤ 59) (x y z : Word) :
    roundFn t x y z = (x &&& y) ^^^ (x &&& z) ^^^ (y &&& z) ∧ roundK t = 0x8F1BBCDC := by
  have h20 : ¬ t < 20 := by omega
  have h40 : ¬ t < 40 := by omega
  have h60 : t < 60 := by omega
  simp only [roundFn, roundK, maj, if_neg h20, if_neg h40, if_pos h60, and_self]

theorem stage_of_ge_60 {t : Nat} (hlo : 60 ≤ t) (x y z : Word) :
    roundFn t x y z = x ^^^ y ^^^ z ∧ roundK t = 0xCA62C1D6 := by
  have h20 : ¬ t < 20 := by omega
  have h40 : ¬ t < 40 := by omega
  have h60 : ¬ t < 60 := by omega
  simp only [roundFn, roundK, parity, if_neg h20, if_neg h40, if_neg h60, and_self]

/-- One round step in a stage whose round function gives the word `f` and whose constant is `k`. -/
theorem roundStep_of_stage (s : State) {f k : Word}
    (h : roundFn s.t.toNat s.work.b s.work.c s.work.d = f ∧ roundK s.t.toNat = k) :
    s.roundStep =
      { s with
        buf := s.buf.schedule s.t.toNat
        work :=
          ⟨((s.work.a <<< 5) ||| (s.work.a >>> 27)) + f + s.work.e + k + (s.buf.schedule s.t.toNat).word s.t.toNat,
            s.work.a, (s.work.b <<< 30) ||| (s.work.b >>> 2), s.work.c, s.work.d⟩
        t := s.t + 1 } := by
  obtain ⟨hf, hk⟩ := h
  rw [State.roundStep, WorkRegs.round, hf, hk, rotl, rotl]

/-- Settles O35, by the round step in each of the four stages. -/
theorem loadAndRoundFollowTheirFormulas : Obligations.LoadAndRoundFollowTheirFormulas := by
  intro s
  refine ⟨rfl, fun _ => ?_⟩
  dsimp only
  exact ⟨fun h => roundStep_of_stage s (stage_of_le_19 h _ _ _),
    fun hlo h => roundStep_of_stage s (stage_of_le_39 hlo h _ _ _),
    fun hlo h => roundStep_of_stage s (stage_of_le_59 hlo h _ _ _),
    fun hlo _ => roundStep_of_stage s (stage_of_ge_60 hlo _ _ _)⟩

end Sys2Proof.Machine
end

section
/-! PROOFS. The obligations of spec/42_endian.md: bswap and Normalize lane by lane (R170, R171), and the digest port
while PHASE = 1 (R176, R227). -/

namespace Sys2Proof.Machine

/-! ## bswap and Normalize (R170, R171) -/

/-- Where lane k sits under BE, in the numbering of R171: bits 31−8k : 24−8k. -/
theorem laneByte_be (x : Word) (k : Nat) : laneByte .be x k = x.extractLsb' (24 - 8 * k) 8 := by
  rw [laneByte, lanepos_be, Nat.mul_sub]

theorem laneByte_le_bswap (x : Word) {k : Nat} (hk : k < 4) : laneByte .le (bswap x) k = laneByte .be x k := by
  have hmirror := laneByte_bswap x (3 - k) (by omega)
  simpa only [laneByte, lanepos, show 3 - (3 - k) = k by omega] using hmirror

/-- Both swaps trade the lanes of LE for those of BE, so that each lane comes back to its place. -/
theorem bswap_bswap (x : Word) : bswap (bswap x) = x :=
  word_eq_of_lanes fun k hk =>
    calc laneByte .be (bswap (bswap x)) k
      _ = laneByte .le (bswap x) k := laneByte_bswap _ k hk
      _ = laneByte .be x k := laneByte_le_bswap x hk

/-- Settles O37: byte k of a word is its lane k under LE, and its byte 3 − k is its lane k under BE. -/
theorem swapReversesTheBytesOfAWord : Obligations.SwapReversesTheBytesOfAWord := by
  refine ⟨fun x => ⟨bswap_bswap x, fun k hk => ?_⟩, by decide, by decide⟩
  rw [← laneByte_be]
  exact laneByte_le_bswap x hk

/-- Settles O38: offset 4j + k is lane k of word j, and Normalize moves lane k to lane k of the internal order. -/
theorem normalizedWordsAreInInternalOrder : Obligations.NormalizedWordsAreInInternalOrder := by
  refine ⟨fun w => ⟨rfl, rfl⟩, fun lanes b j k _ hk => ?_⟩
  have hword : (4 * j + k) / 4 = j := by omega
  have hlane : (4 * j + k) % 4 = k := by omega
  rw [← laneByte_be, laneByte_normalize lanes _ k hk, Buf.readByte, hword, hlane]

/-! ## The digest port (R176, R227) -/

/-- While PHASE = 1 a word other than START changes nothing or is a command error (R201). -/
theorem accept_finalized {w : CmdWord} {s : State} (hp : s.phase = .finalized) (hd : decode w ≠ .ok .start) :
    accept w s = .next s ∨ ∃ c, accept w s = .next (s.raiseCmdError c) := by
  rcases accept_cases w s with ⟨e, _⟩ | ⟨_, hstart⟩ | herror | ⟨_, _, _, _, hactive, _⟩ | ⟨_, hactive, _⟩
  · exact .inl e
  · exact absurd hstart hd
  · exact .inr herror
  · cases hp.symm.trans hactive
  · cases hp.symm.trans hactive

/-- Of what a step from IDLE with PHASE = 1 can do, only a reset and START reach H, PHASE or SEQ. -/
theorem step_finalized_idle {s : State} (hp : s.phase = .finalized) (hq : s.seq = .idle)
    (hquiet : ∀ p ∈ s.host.head?, p.rst = false ∧ (p.cmdValid = true → decode p.cmd ≠ .ok .start)) :
    ∃ t, step s = .next t ∧ t.h = s.h ∧ t.phase = s.phase ∧ t.seq = s.seq := by
  rcases step_cases s with ⟨p, rest, hhost, hrst, _⟩ | ⟨p, rest, hhost, _, _, hvalid, e⟩ | ⟨_, rest, _, _, _, _, e⟩ |
    ⟨_, e⟩
  · obtain ⟨hnrst, _⟩ := hquiet p (by simp [hhost])
    cases hrst.symm.trans hnrst
  · obtain ⟨_, hnstart⟩ := hquiet p (by simp [hhost])
    rw [e]
    rcases accept_finalized (s := s.setHost rest) hp (hnstart hvalid) with haccept | ⟨c, haccept⟩
    · exact ⟨_, haccept, rfl, rfl, rfl⟩
    · exact ⟨_, haccept, rfl, rfl, rfl⟩
  · exact ⟨_, e, rfl, rfl, rfl⟩
  · have hstays : s.microStep = s := by rw [State.microStep, hq]
    exact ⟨s, by rw [e, hstays], rfl, rfl, rfl⟩

/-- Settles O43: the port follows H, DV follows PHASE and BUSY follows SEQ, and the step keeps all three. -/
theorem digestIsImmutableUntilStartOrReset : Obligations.DigestIsImmutableUntilStartOrReset := by
  intro s hp hq hquiet
  obtain ⟨t, hstep, hh, hphase, hseq⟩ := step_finalized_idle hp hq hquiet
  have hidle : t.seq = .idle := hseq.trans hq
  have hfin : t.phase = .finalized := hphase.trans hp
  refine ⟨t, hstep, by rw [State.digest, State.digest, hh], hfin, hidle, (digestValid_iff t).2 hfin, ?_⟩
  rw [State.busy, hidle]

end Sys2Proof.Machine
end

section
/-! PROOFS. The obligations of spec/60_exceptions.md: every step goes on (R200), the command error and the order of its
causes (R202, R203), ERR beside the commands (R204), and faulted runs (R205). -/

namespace Sys2Proof.Machine

/-! ## Every step goes on (R200) -/

theorem exists_accept_eq_next (w : CmdWord) (s : State) : ∃ t, accept w s = .next t := by
  rcases accept_cases w s with ⟨e, _⟩ | ⟨e, _⟩ | ⟨_, e⟩ | ⟨_, _, _, _, _, e⟩ | ⟨_, _, e⟩
  all_goals exact ⟨_, e⟩

/-- Settles O17, by what a step can do. -/
theorem everyStepGivesANextState : Obligations.EveryStepGivesANextState := by
  intro s
  rcases step_cases s with ⟨_, _, _, _, e⟩ | ⟨p, rest, _, _, _, _, e⟩ | ⟨_, _, _, _, _, _, e⟩ | ⟨_, e⟩
  · exact ⟨_, e⟩
  · rw [e]
    exact exists_accept_eq_next p.cmd (s.setHost rest)
  · exact ⟨_, e⟩
  · exact ⟨_, e⟩

/-! ## The command error (R202, R203) -/

/-- A word presented in IDLE is accepted, whatever it decodes to (R224). -/
theorem step_eq_accept {s : State} {p : PortIn} {rest : List PortIn} (hq : s.seq = .idle) (hhost : s.host = p :: rest)
    (hrst : p.rst = false) (hvalid : p.cmdValid = true) : step s = accept p.cmd (s.setHost rest) := by
  simp [step, nextEdge, hhost, hrst, hvalid, State.cmdReady, State.busy, hq]

/-- While PHASE = 1, a word that decodes to FINISH or to a beat is E_SEQ (R201): a decoded beat has a legal NB. -/
theorem accept_seq_error {w : CmdWord} {s : State} (hp : s.phase = .finalized)
    (hd : decode w = .ok .finish ∨ ∃ nb data, decode w = .ok (.update nb data)) :
    accept w s = .next (s.raiseCmdError .seq) := by
  obtain ⟨hupdate, hfinish⟩ := updateAndFinishRaiseSequenceErrorWhenFinalized s hp
  rcases hd with hd | ⟨nb, data, hd⟩ <;> rw [accept_of_decode_ok hd]
  · exact hfinish
  · exact hupdate nb data (of_decide_eq_true (wellFormed_of_decode hd))

/-- Settles O10: both kinds of error raise their cause on the state with the word taken off the port. -/
theorem erroneousWordWritesOnlyErrAndEcause : Obligations.ErroneousWordWritesOnlyErrAndEcause := by
  intro s p rest c hq hhost hrst hvalid hcause
  rw [step_eq_accept hq hhost hrst hvalid]
  rcases hcause with hd | ⟨rfl, hp, hd⟩
  · exact accept_of_decode_error hd _
  · exact accept_seq_error hp hd

/-- Settles O11: the decoder names the first cause from the fields, and E_SEQ follows a decoded command. -/
theorem firstCauseInPriorityOrderIsReported : Obligations.FirstCauseInPriorityOrderIsReported := by
  refine fun w s => ⟨fun hopc => ?_, fun hopc hrsv => ?_, fun hopc hrsv hnb => ?_, fun hopc hrsv hnb hp => ?_,
    fun hopc hrsv hp => ?_⟩
  · exact accept_of_decode_error ((decode_eq_iff w (.error .rsvdOpc)).2 hopc) s
  · exact accept_of_decode_error ((decode_eq_iff w (.error .rsvdBit)).2 ⟨hopc, hrsv⟩) s
  · exact accept_of_decode_error ((decode_eq_iff w (.error .rsvdNb)).2 ⟨hopc, hrsv, hnb⟩) s
  · exact accept_seq_error hp (.inr ⟨_, _, (decode_eq_iff w (.ok (.update _ _))).2 ⟨⟨hopc, hrsv⟩, rfl, rfl, hnb⟩⟩)
  · exact accept_seq_error hp (.inl ((decode_eq_iff w (.ok .finish)).2 ⟨hopc, hrsv⟩))

/-! ## ERR beside the commands (R204) -/

/-- With ERR = 1 an accepted word keeps ERR and the first cause: a later error finds ERR set (R202). -/
theorem accept_keeps_error {w : CmdWord} {s t : State} (herr : s.err = true) (h : accept w s = .next t) :
    t.err = true ∧ t.ecause = s.ecause := by
  rcases accept_cases w s with ⟨e, _⟩ | ⟨e, _⟩ | ⟨c, e⟩ | ⟨nb, data, _, hnb, _, e⟩ | ⟨_, _, e⟩ <;>
    cases e.symm.trans h
  · exact ⟨herr, rfl⟩
  · exact ⟨herr, startContext_ecause s⟩
  · exact ⟨raiseCmdError_err s c, (raiseCmdError_ecause s c).trans (if_pos herr)⟩
  · have hlen : (beatBytes s.lanes nb.toNat data).length < 64 := by rw [length_beatBytes]; omega
    exact ⟨(updateBytes_err s _ hlen).trans herr, updateBytes_ecause s _ hlen⟩
  · exact ⟨(finishContext_err s).trans herr, finishContext_ecause s⟩

/-- Of what a step without reset can do, only an accepted word could reach ERR and ECAUSE. -/
theorem step_keeps_error {s t : State} (herr : s.err = true) (hrst : ∀ p ∈ s.host.head?, p.rst = false)
    (h : step s = .next t) : t.err = true ∧ t.ecause = s.ecause := by
  rcases step_cases s with ⟨p, _, hhost, hreset, _⟩ | ⟨_, rest, _, _, _, _, e⟩ | ⟨_, rest, _, _, _, _, e⟩ | ⟨_, e⟩
  · cases hreset.symm.trans (hrst p (by simp [hhost]))
  · exact accept_keeps_error (s := s.setHost rest) herr (e.symm.trans h)
  · cases e.symm.trans h
    exact ⟨herr, setHost_ecause s rest⟩
  · cases e.symm.trans h
    exact ⟨(microStep_err s).trans herr, microStep_ecause s⟩

/-- R222: a reset at the port is the step. -/
theorem step_reset {s : State} {p : PortIn} {rest : List PortIn} (hhost : s.host = p :: rest) (hrst : p.rst = true) :
    step s = .next (s.setHost rest).resetEdge := by
  simp [step, nextEdge, hhost, hrst]

/-- A legal command neither reads nor writes ERR and ECAUSE. -/
theorem exec_setErr {i : Instr} {s : State} (hwf : i.wellFormed = true)
    (hlegal : s.phase = .active ∨ i = .nop ∨ i = .start) :
    ∃ t, exec i s = .next t ∧ t.err = s.err ∧ t.ecause = s.ecause ∧
      ∀ e c, exec i (s.setErr e c) = .next (t.setErr e c) := by
  cases i with
  | nop => exact ⟨s, rfl, rfl, rfl, fun _ _ => rfl⟩
  | start => exact ⟨s.startContext, rfl, startContext_err s, startContext_ecause s, fun _ _ => rfl⟩
  | update nb data =>
    have hp : s.phase = .active := by simpa using hlegal
    have hnb : nb.toNat ≤ 4 := of_decide_eq_true hwf
    have hlen : (beatBytes s.lanes nb.toNat data).length < 64 := by rw [length_beatBytes]; omega
    refine ⟨_, exec_update_active s nb data hp hnb, updateBytes_err s _ hlen, updateBytes_ecause s _ hlen,
      fun e c => ?_⟩
    rw [exec_update_active (s.setErr e c) nb data hp hnb, setErr_lanes, setErr_updateBytes s e c _ hlen]
  | finish =>
    have hp : s.phase = .active := by simpa using hlegal
    refine ⟨_, exec_finish_active s hp, finishContext_err s, finishContext_ecause s, fun e c => ?_⟩
    rw [exec_finish_active (s.setErr e c) hp, setErr_finishContext]

/-- Settles O12: steps without reset, the reset edge, and legal commands under other values of ERR and ECAUSE. -/
theorem errIsStickyAndCommandsStillRun : Obligations.ErrIsStickyAndCommandsStillRun := by
  refine ⟨fun s t => step_keeps_error, fun s p rest hhost hrst => ?_, fun i s e c hwf hlegal => ?_⟩
  · exact ⟨_, step_reset hhost hrst, rfl, rfl⟩
  · obtain ⟨t, hexec, herr, hcause, hset⟩ := exec_setErr hwf hlegal
    exact ⟨t, hexec, herr, hcause, hset e c⟩

/-! ## Faulted runs (R205) -/

/-- A run is faulted exactly when one of its states shows ERR = 1: its first one, or one of the run after a step. -/
theorem faultedRun_iff (n : Nat) :
    ∀ s, faultedRun n s = true ↔
      ∃ (k : Nat) (t : State), k ≤ n ∧ Host.Core.run Sys2Proof.core k s = .next t ∧ t.err = true := by
  induction n with
  | zero =>
    intro s
    constructor
    · exact fun h => ⟨0, s, le_rfl, rfl, h⟩
    · rintro ⟨k, t, hk, hrun, herr⟩
      obtain rfl := Nat.le_zero.1 hk
      cases hrun
      exact herr
  | succ n ih =>
    intro s
    obtain ⟨u, hstep⟩ := everyStepGivesANextState s
    rw [faultedRun_step hstep, Bool.or_eq_true, ih u]
    constructor
    · rintro (h | ⟨k, t, hk, hrun, herr⟩)
      · exact ⟨0, s, Nat.zero_le _, rfl, h⟩
      · exact ⟨k + 1, t, Nat.succ_le_succ hk, (core_run_succ s u k hstep).trans hrun, herr⟩
    · rintro ⟨k, t, hk, hrun, herr⟩
      cases k with
      | zero =>
        cases hrun
        exact .inl herr
      | succ k => exact .inr ⟨k, t, Nat.le_of_succ_le_succ hk, (core_run_succ s u k hstep).symm.trans hrun, herr⟩

/-- `faultedRun_iff` at the clock level. -/
theorem faultedEdges_iff (ps : List PortIn) :
    ∀ s, faultedEdges ps s = true ↔ ∃ k, k ≤ ps.length ∧ (clockRun (ps.take k) s).err = true := by
  induction ps with
  | nil => simp [faultedEdges, State.faulted, clockRun]
  | cons p ps ih =>
    intro s
    rw [faultedEdges, Bool.or_eq_true, ih]
    constructor
    · rintro (h | ⟨k, hk, herr⟩)
      · exact ⟨0, Nat.zero_le _, h⟩
      · exact ⟨k + 1, Nat.succ_le_succ hk, herr⟩
    · rintro ⟨k, hk, herr⟩
      cases k with
      | zero => exact .inl herr
      | succ k => exact .inr ⟨k, Nat.le_of_succ_le_succ hk, herr⟩

/-- Settles O51: more steps or edges do not clear the fault, and a faulted run has no digest. -/
theorem faultedRunHasNoDigest : Obligations.FaultedRunHasNoDigest := by
  refine ⟨fun n s => ⟨faultedRun_iff n s, fun h m => ?_⟩, fun ps s => ⟨faultedEdges_iff ps s, fun h qs => ?_⟩⟩
  · have hmore := faultedRun_more n m s h
    exact ⟨hmore, digestOfRun_of_faulted hmore⟩
  · have hmore := faultedEdges_more ps qs s h
    exact ⟨hmore, digestOfEdges_of_faulted hmore⟩

end Sys2Proof.Machine
end

section
/-! PROOFS. The obligations of spec/70_reset_and_hazards.md: reset (R221, R222), the handshake (R224), what stays
while BUSY (R226), and the clock level against the command level (R229, R231). -/

namespace Sys2Proof.Machine

/-! ## Reset (R221, R222) -/

theorem resetEdge_holdsResetValues (s : State) : s.resetEdge.HoldsResetValues :=
  ⟨rfl, rfl, rfl, rfl, rfl, rfl, rfl, rfl, rfl⟩

theorem off_resetEdge (s : State) : s.resetEdge.off = 0 := (rfl)

/-- STATUS reads PHASE, ERR, ECAUSE and SEQ alone, which hold the values of power-on (R33). -/
theorem status_resetEdge (s : State) : s.resetEdge.status = 0x00 := by
  obtain ⟨_, hreset⟩ := statusWordFields
  exact hreset

/-- R102 against R221: START writes H, L and PHASE, which hold START's own values after a reset. -/
theorem startContext_resetEdge (s : State) : s.resetEdge.startContext = s.resetEdge := (rfl)

/-- Settles O14: the digest port shows initialHash, and a START finds nothing to change. -/
theorem resetGivesEveryElementItsValue : Obligations.ResetGivesEveryElementItsValue := by
  refine ⟨by decide, fun s => ⟨resetEdge_holdsResetValues s, off_resetEdge s, status_resetEdge s, ?_,
    resetEdge_lanes s, congrArg Host.Outcome.next (startContext_resetEdge s)⟩⟩
  have hport : initialHash.digest = 0x67452301EFCDAB8998BADCFE10325476C3D2E1F0 := by decide
  exact hport

/-- Settles O49: a reset edge gives the invariant from any state, and so do the values at power-on. -/
theorem resetMeetsTheInvariant : Obligations.ResetMeetsTheInvariant :=
  ⟨by decide, inv_resetEdge⟩

theorem clockEdge_reset {p : PortIn} (hrst : p.rst = true) (s : State) : clockEdge p s = s.resetEdge := by
  simp [clockEdge, hrst]

/-- Settles O15: at both levels an edge with rst = 1 is the reset edge, whatever else is at the ports. -/
theorem resetWinsOverEverything : Obligations.ResetWinsOverEverything := by
  intro s p hrst
  rw [clockEdge_reset hrst]
  refine ⟨resetEdge_holdsResetValues s, resetEdge_lanes s, fun q hq => clockEdge_reset hq s, fun rest hhost => ?_⟩
  exact ⟨_, step_reset hhost hrst, resetEdge_holdsResetValues _, resetEdge_lanes _, rfl⟩

/-! ## The handshake (R224) -/

theorem cmdReady_iff (s : State) (r : Bool) : s.cmdReady r = true ↔ s.seq = .idle ∧ r = false := by
  cases hq : s.seq <;> simp [State.cmdReady, State.busy, hq]

/-- With rst = 0, cmd_ready is the inverse of BUSY (R36). -/
theorem busy_of_not_cmdReady {s : State} {r : Bool} (hr : r = false) (h : s.cmdReady r = false) : s.busy = true := by
  simpa [State.cmdReady, hr] using h

theorem clockEdge_ready {s : State} {p : PortIn} (hr : p.rst = false) (h : s.cmdReady p.rst = true) :
    clockEdge p s = if p.cmdValid then s.beginWord p.cmd else s := by
  rw [clockEdge, h, hr]
  rfl

/-- R224 at the command level: in BUSY without reset the step is a micro-step, and the word is not taken. -/
theorem step_busy {s : State} {p : PortIn} {rest : List PortIn} (hb : s.busy = true) (hhost : s.host = p :: rest)
    (hrst : p.rst = false) : step s = .next s.microStep := by
  simp [step, nextEdge, hhost, hrst, State.cmdReady, hb]

/-- Settles O16: accepted, waiting, and not ready, where both levels take a micro-step, which keeps the host. -/
theorem wordIsAcceptedExactlyWhenReady : Obligations.WordIsAcceptedExactlyWhenReady := by
  intro s p
  refine ⟨cmdReady_iff s p.rst, fun hrst hvalid hready => ?_, fun hrst hvalid hready => ?_, fun hrst hready => ?_⟩
  · rw [clockEdge_ready hrst hready, if_pos hvalid]
  · rw [clockEdge_ready hrst hready, hvalid]
    rfl
  · have hb := busy_of_not_cmdReady hrst hready
    rw [clockEdge_busy s p hrst hb]
    exact ⟨fun q hq => clockEdge_busy s q hq hb,
      fun rest hhost => ⟨step_busy hb hhost hrst, (microStep_host s).trans hhost⟩⟩

/-! ## What stays while BUSY (R226) -/

/-- An edge without reset that leads to BUSY is a micro-step of BUSY, or from IDLE the accepting edge of a beat that
completes a block or of FINISH. -/
theorem clockEdge_busy_cases (s : State) (p : PortIn) (hr : p.rst = false) (hb : (clockEdge p s).busy = true) :
    (s.busy = true ∧ clockEdge p s = s.microStep) ∨
      (s.busy = false ∧ ∃ nb data, decode p.cmd = .ok (.update nb data) ∧
        clockEdge p s = s.beginBlock (beatBytes s.lanes nb.toNat data)) ∨
      (s.busy = false ∧ decode p.cmd = .ok .finish ∧ clockEdge p s = s.beginFinish) := by
  cases hs : s.busy with
  | true => exact .inl ⟨rfl, clockEdge_busy s p hr hs⟩
  | false =>
    rcases clockEdge_cases p s with ⟨h, _⟩ | ⟨_, _, _, e⟩ | ⟨_, _, _, e⟩ | ⟨_, hq, _⟩
    · cases hr.symm.trans h
    · rw [e] at hb ⊢
      rcases beginWord_busy s p.cmd hs hb with ⟨nb, data, hd, _, e⟩ | ⟨hd, e⟩
      · exact .inr (.inl ⟨rfl, nb, data, hd, e⟩)
      · exact .inr (.inr ⟨rfl, hd, e⟩)
    · cases hs.symm.trans (e ▸ hb)
    · cases hs.symm.trans ((busy_iff s).2 hq)

/-- PHASE <- 1 comes with the edge that ends FINISH, so a micro-step that stays in BUSY keeps PHASE (R115, R229). -/
theorem microStep_phase_of_busy {s : State} (hb : s.microStep.busy = true) : s.microStep.phase = s.phase := by
  rcases microStep_cases s with ⟨_, e⟩ | ⟨job, _, e⟩ | ⟨job, _, _, e⟩ | ⟨job, _, _, e⟩ <;> rw [e] at hb ⊢
  · rw [setSeq_phase, load_phase, prepare_frame (fun s => s.phase) setBuf_phase]
  · exact roundStep_phase s
  · cases job with
    | updateBlock | finishOne | finishLast => cases hb
    | finishFirst => rfl

theorem microStep_byteCount (s : State) : s.microStep.byteCount = s.byteCount := by
  rw [State.byteCount, microStep_lHi, microStep_lLo, State.byteCount]

theorem beginBlock_byteCount (s : State) (vs : List Byte) :
    (s.beginBlock vs).byteCount = (s.counterAdd vs.length).byteCount := (rfl)

/-- R226, for every edge without reset that leads to BUSY. -/
theorem clockEdge_keeps_fields {s : State} {p : PortIn} (hr : p.rst = false) (hb : (clockEdge p s).busy = true) :
    (clockEdge p s).phase = s.phase ∧ (clockEdge p s).err = s.err ∧ (clockEdge p s).ecause = s.ecause := by
  rcases clockEdge_busy_cases s p hr hb with ⟨_, e⟩ | ⟨_, _, _, _, e⟩ | ⟨_, _, e⟩ <;> rw [e] at hb ⊢
  · exact ⟨microStep_phase_of_busy hb, microStep_err s, microStep_ecause s⟩
  · exact ⟨rfl, rfl, rfl⟩
  · exact ⟨rfl, rfl, rfl⟩

theorem digestValid_congr {s t : State} (h : t.phase = s.phase) : t.digestValid = s.digestValid := by
  rw [State.digestValid, h, State.digestValid]

/-- Settles O46: DV and STATUS follow the fields that such an edge keeps; of these edges only the accepting edge of a
beat adds to L. -/
theorem statusKeepsItsFieldsWhileBusy : Obligations.StatusKeepsItsFieldsWhileBusy := by
  refine ⟨fun s p hr hb => ?_, fun s p hr hs hb => ?_, fun s p hr hs hb => ?_⟩
  · obtain ⟨hphase, herr, hcause⟩ := clockEdge_keeps_fields hr hb
    exact ⟨hphase, digestValid_congr hphase, herr, hcause⟩
  · obtain ⟨hphase, herr, hcause⟩ := clockEdge_keeps_fields hr hb
    constructor
    · rw [clockEdge_busy s p hr hs, microStep_byteCount]
    · rw [State.status, digestValid_congr hphase, herr, hcause, hb, ← hs, State.status]
  · rcases clockEdge_busy_cases s p hr hb with ⟨hs', _⟩ | ⟨_, nb, data, hd, e⟩ | ⟨_, hd, e⟩
    · cases hs.symm.trans hs'
    · exact .inl ⟨nb, data, hd, by rw [e, beginBlock_byteCount, length_beatBytes, byteCount_counterAdd_nb]⟩
    · exact .inr ⟨hd, by rw [e]; rfl⟩

/-! ## The clock level against the command level (R229, R231) -/

/-- A busy interval of n edges: n micro-steps lead from `s` to `t`, which is in IDLE, and the core is BUSY before each
of them. -/
structure BusyUntil (n : Nat) (s t : State) : Prop where
  reaches : State.microStep^[n] s = t
  idle : t.seq = .idle
  busy : ∀ k, k < n → (State.microStep^[k] s).busy = true

theorem busyUntil_zero {s : State} (hq : s.seq = .idle) : BusyUntil 0 s s :=
  ⟨rfl, hq, fun _ hk => absurd hk (Nat.not_lt_zero _)⟩

/-- One compression after a beat that completes a block. -/
theorem busyUntil_beginBlock {s : State} (hq : s.seq = .idle) (hp : s.pend = []) (vs : List Byte)
    (h : 64 ≤ s.off + vs.length) (hl : vs.length < 64) : BusyUntil 82 (s.beginBlock vs) (s.updateBytes vs) :=
  ⟨beginBlock_done s vs hq hp h hl, (updateBytes_seq s vs hl).trans hq, job_busy _ .updateBlock⟩

/-- BUSY through both compressions of a FINISH with OFF ≥ 56: edge 82 enters the second one. -/
theorem finishTwo_busy (s : State) (k : Nat) (hk : k < 164) :
    (State.microStep^[k] (s.setSeq (.busy .finishFirst .prepare))).busy = true := by
  by_cases h : k < 82
  · exact job_busy s .finishFirst k h
  · obtain ⟨j, rfl⟩ := Nat.exists_eq_add_of_le' (Nat.not_lt.1 h)
    rw [Function.iterate_add_apply, finishFirst_done]
    exact job_busy _ .finishLast j (by omega)

/-- One or two compressions after FINISH, as R112 decides. -/
theorem busyUntil_beginFinish {s : State} (hq : s.seq = .idle) :
    BusyUntil (if 56 ≤ s.off then 164 else 82) s.beginFinish s.finishContext := by
  have hidle : s.finishContext.seq = .idle := (finishContext_seq s).trans hq
  unfold State.beginFinish
  split_ifs with h
  · exact ⟨finishTwo_done s hq h, hidle, finishTwo_busy s⟩
  · exact ⟨finishOne_done s hq (by omega), hidle, job_busy s .finishOne⟩

/-- A beat is done at its accepting edge, or 82 edges later when it completes a block. -/
theorem busyUntil_beginUpdate {s : State} (hq : s.seq = .idle) (hp : s.pend = []) (vs : List Byte)
    (hl : vs.length < 64) :
    BusyUntil (if s.off + vs.length < 64 then 0 else 82) (s.beginUpdate vs) (s.updateBytes vs) := by
  unfold State.beginUpdate
  split_ifs with h
  · exact busyUntil_zero ((updateBytes_seq s vs hl).trans hq)
  · exact busyUntil_beginBlock hq hp vs (by omega) hl

/-- R231 for a command: its busy interval, of the length in R229's table, ends in the state that `exec` gives. -/
theorem exec_busyUntil {s : State} (hq : s.seq = .idle) (hp : s.pend = []) (i : Instr) :
    ∃ t, exec i s = .next t ∧ BusyUntil (s.busyCycles i) (s.beginInstr i) t := by
  cases i with
  | nop => exact ⟨s, rfl, busyUntil_zero hq⟩
  | start => exact ⟨s.startContext, rfl, busyUntil_zero hq⟩
  | update nb data =>
    have hlen := length_beatBytes s.lanes nb.toNat data
    simp only [exec, execUpdate, State.busyCycles, State.beginInstr]
    by_cases hn : 4 < nb.toNat
    · simp only [hn, true_or, if_true]
      exact ⟨_, rfl, busyUntil_zero hq⟩
    by_cases hf : s.phase = .finalized
    · simp only [hn, hf, or_true, if_true, if_false]
      exact ⟨_, rfl, busyUntil_zero hq⟩
    · simp only [hn, hf, or_self, if_false]
      have hbusy := busyUntil_beginUpdate hq hp (beatBytes s.lanes nb.toNat data) (by omega)
      rw [hlen] at hbusy
      exact ⟨_, rfl, hbusy⟩
  | finish =>
    simp only [exec, execFinish, State.busyCycles, State.beginInstr]
    by_cases hf : s.phase = .finalized
    · simp only [hf, if_true]
      exact ⟨_, rfl, busyUntil_zero hq⟩
    · simp only [hf, if_false]
      exact ⟨_, rfl, busyUntil_beginFinish hq⟩

/-- R231 for a word: an erroneous word is done at its accepting edge (R229). -/
theorem accept_busyUntil {s : State} (hq : s.seq = .idle) (hp : s.pend = []) (w : CmdWord) :
    ∃ t, accept w s = .next t ∧ BusyUntil (s.wordBusyCycles w) (s.beginWord w) t := by
  unfold accept State.wordBusyCycles State.beginWord
  cases decode w with
  | error c => exact ⟨_, rfl, busyUntil_zero hq⟩
  | ok i => exact exec_busyUntil hq hp i

/-- Within a busy interval the edges after the accepting one are micro-steps, whatever the host drives. -/
theorem clockRun_present {s t : State} {w : CmdWord} {n : Nat} (hq : s.seq = .idle)
    (h : BusyUntil n (s.beginWord w) t) (ps : List PortIn) (hr : ∀ p ∈ ps, p.rst = false) (hl : ps.length ≤ n) :
    clockRun (present w :: ps) s = State.microStep^[ps.length] (s.beginWord w) := by
  rw [clockRun, clockEdge_accept s w hq]
  exact clockRun_busy ps _ hr fun k hk => h.busy k (by omega)

/-- Settles O45, by the busy interval of the accepted word and the edges within it. -/
theorem clockLevelAgreesWithCommandLevel : Obligations.ClockLevelAgreesWithCommandLevel := by
  intro s w ps hq hp hr hl
  obtain ⟨t, haccept, hbusy⟩ := accept_busyUntil hq hp w
  have hend : clockRun (present w :: ps) s = t := by
    rw [clockRun_present hq hbusy ps hr hl.le, hl, hbusy.reaches]
  refine ⟨by rw [haccept, hend], by rw [hend, hbusy.idle], fun k hk => ?_⟩
  have hlen : (ps.take k).length = k := List.length_take_of_le hk.le
  rw [clockRun_present hq hbusy (ps.take k) (fun p h => hr p (List.mem_of_mem_take h)) (by omega), hlen]
  exact hbusy.busy k (by omega)

end Sys2Proof.Machine
end

section
/-! PROOFS. The term of a beat with a reserved byte count, which no word decodes to (R77, R202), and the reference hash
on the source's vectors (V1, V2). -/

namespace Sys2Proof.Machine

/-! ## UPDATE with a reserved byte count (R77, R202) -/

/-- E_RSVD_NB comes before the check of PHASE (R203). -/
theorem exec_update_reserved (s : State) {nb : BitVec 3} (data : Word) (hn : 4 < nb.toNat) :
    exec (.update nb data) s = .next (s.raiseCmdError .rsvdNb) := by
  rw [exec, execUpdate, if_pos hn]

/-- Settles O25: such a term is the command error with code 3. -/
theorem reservedByteCountRaisesAnError : Obligations.ReservedByteCountRaisesAnError := by
  intro s nb data hn
  rw [exec_update_reserved s data hn, State.raiseCmdError, CmdCause.code]

/-! ## The reference hash on the source's vectors -/

/-- With at most 55 bytes, the padding bit and the length fit in the first block (R112). -/
theorem length_paddedStream_of_le {vs : List Byte} (h : vs.length ≤ 55) : (paddedStream vs).length = 64 := by
  simp [paddedStream, be64]
  omega

/-- The hash of a stream of at most 55 bytes is one compression. -/
theorem streamHash_of_length_le {vs : List Byte} (h : vs.length ≤ 55) :
    streamHash vs = refCompress initialHash (beWords (paddedStream vs)) := by
  have hlen := length_paddedStream_of_le h
  rw [streamHash, hlen, refBlocks_succ, refBlocks_zero, List.take_of_length_le hlen.le]

/-- V1: the final block of the empty stream. -/
theorem beWords_paddedStream_empty : beWords (paddedStream []) = 0x80000000 :: List.replicate 15 0 := by decide

/-- V2: the final block of "abc". -/
theorem beWords_paddedStream_abc :
    beWords (paddedStream [0x61, 0x62, 0x63]) = 0x61626380 :: (List.replicate 14 0 ++ [0x18]) := by decide

/-- V1: H after the final block of the empty stream. -/
theorem refCompress_block_empty :
    refCompress initialHash (0x80000000 :: List.replicate 15 0) =
      ⟨0xDA39A3EE, 0x5E6B4B0D, 0x3255BFEF, 0x95601890, 0xAFD80709⟩ := by decide +kernel

/-- V2: H after the final block of "abc". -/
theorem refCompress_block_abc :
    refCompress initialHash (0x61626380 :: (List.replicate 14 0 ++ [0x18])) =
      ⟨0xA9993E36, 0x4706816A, 0xBA3E2571, 0x7850C26C, 0x9CD0D89D⟩ := by decide +kernel

/-- Settles O52, by the one block of each stream and H after it. -/
theorem streamHashGivesTheSourceVectors : Obligations.StreamHashGivesTheSourceVectors := by
  constructor
  · rw [streamHash_of_length_le (by decide), beWords_paddedStream_empty, refCompress_block_empty]
    decide
  · rw [streamHash_of_length_le (by decide), beWords_paddedStream_abc, refCompress_block_abc]
    decide

end Sys2Proof.Machine
end
